-- ==== Sys2Proof/Word.lean ====
section
/-! DEFINITION. The word types of the machine (spec/00_scope.md R8, spec/10_state.md R20, R24, R25). -/

namespace Sys2Proof

/-- A general register, a timer, an immediate `kk` or a byte of memory: 8 bits (R20, R29, R30, R60). -/
abbrev Byte := BitVec 8

/-- `I`, `PC`, `IR`, a call-stack slot or an instruction word: 16 bits (R24, R25, R26, R37, R90). -/
abbrev Word := BitVec 16

/-- The immediate address field `nnn`: 12 bits (spec/30_encoding.md R91). -/
abbrev Addr := BitVec 12

/-- The number of a general register, `V[0]` to `V[15]` (R20). -/
abbrev Reg := Fin 16

/-- The number of a key, 0 to 15 (spec/10_state.md R34). -/
abbrev Key := Fin 16

/-- The number of a call-stack slot, 0 to 15 (spec/10_state.md R26, R27). -/
abbrev Slot := Fin 16

end Sys2Proof
end

