-- ==== Sys2Proof/Syntax.lean ====
section
/-! DEFINITION. The instructions: one constructor per row of spec/opcode_table.json (spec/30_encoding.md R95), with the
operand fields of R91 that the row's pattern names. -/

namespace Sys2Proof

/-- The 34 instructions. A register field is a register number, `kk` and `nnn` are immediates, and the sprite height
`n` of `Dxyn` is a count (R93), which `Instr.WellFormed` bounds. -/
inductive Instr where
  /-- `00E0`, `CLS` (R191) -/
  | cls
  /-- `00EE`, `RET` (R123) -/
  | ret
  /-- `1nnn`, `JP nnn` (R121) -/
  | jp (nnn : Addr)
  /-- `2nnn`, `CALL nnn` (R122) -/
  | call (nnn : Addr)
  /-- `3xkk`, `SE Vx, kk` (R125) -/
  | seImm (x : Reg) (kk : Byte)
  /-- `4xkk`, `SNE Vx, kk` (R126) -/
  | sneImm (x : Reg) (kk : Byte)
  /-- `5xy0`, `SE Vx, Vy` (R127) -/
  | seReg (x y : Reg)
  /-- `6xkk`, `LD Vx, kk` (R143) -/
  | ldImm (x : Reg) (kk : Byte)
  /-- `7xkk`, `ADD Vx, kk` (R144) -/
  | addImm (x : Reg) (kk : Byte)
  /-- `8xy0`, `LD Vx, Vy` (R145) -/
  | ldReg (x y : Reg)
  /-- `8xy1`, `OR Vx, Vy` (R146) -/
  | or (x y : Reg)
  /-- `8xy2`, `AND Vx, Vy` (R147) -/
  | and (x y : Reg)
  /-- `8xy3`, `XOR Vx, Vy` (R148) -/
  | xor (x y : Reg)
  /-- `8xy4`, `ADD Vx, Vy` (R149) -/
  | addReg (x y : Reg)
  /-- `8xy5`, `SUB Vx, Vy` (R150) -/
  | sub (x y : Reg)
  /-- `8xy6`, `SHR Vx`: the field `y` is decoded and ignored (R96, R151) -/
  | shr (x y : Reg)
  /-- `8xy7`, `SUBN Vx, Vy` (R152) -/
  | subn (x y : Reg)
  /-- `8xyE`, `SHL Vx`: the field `y` is decoded and ignored (R96, R153) -/
  | shl (x y : Reg)
  /-- `9xy0`, `SNE Vx, Vy` (R128) -/
  | sneReg (x y : Reg)
  /-- `Annn`, `LD I, nnn` (R172) -/
  | ldI (nnn : Addr)
  /-- `Bnnn`, `JP V0, nnn` (R124) -/
  | jpV0 (nnn : Addr)
  /-- `Cxkk`, `RND Vx, kk` (R154) -/
  | rnd (x : Reg) (kk : Byte)
  /-- `Dxyn`, `DRW Vx, Vy, n` (R193) -/
  | drw (x y : Reg) (n : Nat)
  /-- `Ex9E`, `SKP Vx` (R200) -/
  | skp (x : Reg)
  /-- `ExA1`, `SKNP Vx` (R201) -/
  | sknp (x : Reg)
  /-- `Fx07`, `LD Vx, DT` (R205) -/
  | ldVxDt (x : Reg)
  /-- `Fx0A`, `LD Vx, K` (R202) -/
  | ldVxK (x : Reg)
  /-- `Fx15`, `LD DT, Vx` (R206) -/
  | ldDtVx (x : Reg)
  /-- `Fx18`, `LD ST, Vx` (R207) -/
  | ldStVx (x : Reg)
  /-- `Fx1E`, `ADD I, Vx` (R173) -/
  | addIVx (x : Reg)
  /-- `Fx29`, `LD F, Vx` (R174) -/
  | ldFVx (x : Reg)
  /-- `Fx33`, `LD B, Vx` (R175) -/
  | ldBVx (x : Reg)
  /-- `Fx55`, `LD [I], Vx` (R176) -/
  | ldMemVx (x : Reg)
  /-- `Fx65`, `LD Vx, [I]` (R177) -/
  | ldVxMem (x : Reg)
  deriving DecidableEq, Repr

end Sys2Proof
end

