-- ==== Sys2Proof/WellFormed.lean ====
section
/-! DEFINITION. Which instruction terms an instruction word can hold (spec/30_encoding.md R91, R93). -/

namespace Sys2Proof

/-- The operand fields fit their bits (R91). Register numbers, `kk` and `nnn` carry their bounds in their types; the
sprite height of `Dxyn` is "an unsigned count 0 to 15" (R93) and is checked here. -/
def Instr.wellFormed : Instr → Bool
  | .drw _ _ n => n < 16
  | .cls | .ret | .jp _ | .call _ | .ldI _ | .jpV0 _ => true
  | .seImm _ _ | .sneImm _ _ | .ldImm _ _ | .addImm _ _ | .rnd _ _ => true
  | .seReg _ _ | .sneReg _ _ | .ldReg _ _ | .or _ _ | .and _ _ | .xor _ _ => true
  | .addReg _ _ | .sub _ _ | .shr _ _ | .subn _ _ | .shl _ _ => true
  | .skp _ | .sknp _ | .ldVxDt _ | .ldVxK _ | .ldDtVx _ | .ldStVx _ => true
  | .addIVx _ | .ldFVx _ | .ldBVx _ | .ldMemVx _ | .ldVxMem _ => true

/-- `Instr.wellFormed` as a proposition. -/
abbrev Instr.WellFormed (ins : Instr) : Prop := ins.wellFormed = true

end Sys2Proof
end

