-- ==== Sys2Proof/Decode.lean ====
section
/-! DEFINITION. The decoder, total on any bytes, and the encoder (spec/30_encoding.md R90 to R97, spec/opcode_table.json). -/

namespace Sys2Proof

/-- `w[11:8]` as a register number (R91). -/
def fieldX (w : Word) : Reg := (w.extractLsb' 8 4).toFin

/-- `w[7:4]` as a register number (R91). -/
def fieldY (w : Word) : Reg := (w.extractLsb' 4 4).toFin

/-- `w[3:0]` as a count (R91). -/
def fieldN (w : Word) : Nat := (w.extractLsb' 0 4).toNat

/-- `w[7:0]`, the low byte (R91). -/
def fieldKK (w : Word) : Byte := w.extractLsb' 0 8

/-- `w[11:0]` (R91). -/
def fieldNNN (w : Word) : Addr := w.extractLsb' 0 12

/-- A row of spec/opcode_table.json: a word `w` selects it iff `w AND mask = pattern`, and `build` reads the fields. -/
structure OpcodeRow where
  pattern : Word
  mask : Word
  build : Word → Instr

/-- Whether the word selects the row. -/
def OpcodeRow.selects (r : OpcodeRow) (w : Word) : Bool := w &&& r.mask == r.pattern

/-- Groups 0 to 7 of the opcode map (R95). -/
def opcodeRowsLow : List OpcodeRow :=
  [ ⟨0x00E0, 0xFFFF, fun _ => .cls⟩,
    ⟨0x00EE, 0xFFFF, fun _ => .ret⟩,
    ⟨0x1000, 0xF000, fun w => .jp (fieldNNN w)⟩,
    ⟨0x2000, 0xF000, fun w => .call (fieldNNN w)⟩,
    ⟨0x3000, 0xF000, fun w => .seImm (fieldX w) (fieldKK w)⟩,
    ⟨0x4000, 0xF000, fun w => .sneImm (fieldX w) (fieldKK w)⟩,
    ⟨0x5000, 0xF00F, fun w => .seReg (fieldX w) (fieldY w)⟩,
    ⟨0x6000, 0xF000, fun w => .ldImm (fieldX w) (fieldKK w)⟩,
    ⟨0x7000, 0xF000, fun w => .addImm (fieldX w) (fieldKK w)⟩ ]

/-- Group 8, selected by the low nibble (R95). -/
def opcodeRowsAlu : List OpcodeRow :=
  [ ⟨0x8000, 0xF00F, fun w => .ldReg (fieldX w) (fieldY w)⟩,
    ⟨0x8001, 0xF00F, fun w => .or (fieldX w) (fieldY w)⟩,
    ⟨0x8002, 0xF00F, fun w => .and (fieldX w) (fieldY w)⟩,
    ⟨0x8003, 0xF00F, fun w => .xor (fieldX w) (fieldY w)⟩,
    ⟨0x8004, 0xF00F, fun w => .addReg (fieldX w) (fieldY w)⟩,
    ⟨0x8005, 0xF00F, fun w => .sub (fieldX w) (fieldY w)⟩,
    ⟨0x8006, 0xF00F, fun w => .shr (fieldX w) (fieldY w)⟩,
    ⟨0x8007, 0xF00F, fun w => .subn (fieldX w) (fieldY w)⟩,
    ⟨0x800E, 0xF00F, fun w => .shl (fieldX w) (fieldY w)⟩ ]

/-- Groups 9 to D (R95). -/
def opcodeRowsMid : List OpcodeRow :=
  [ ⟨0x9000, 0xF00F, fun w => .sneReg (fieldX w) (fieldY w)⟩,
    ⟨0xA000, 0xF000, fun w => .ldI (fieldNNN w)⟩,
    ⟨0xB000, 0xF000, fun w => .jpV0 (fieldNNN w)⟩,
    ⟨0xC000, 0xF000, fun w => .rnd (fieldX w) (fieldKK w)⟩,
    ⟨0xD000, 0xF000, fun w => .drw (fieldX w) (fieldY w) (fieldN w)⟩ ]

/-- Groups E and F, selected by the low byte (R95). -/
def opcodeRowsHigh : List OpcodeRow :=
  [ ⟨0xE09E, 0xF0FF, fun w => .skp (fieldX w)⟩,
    ⟨0xE0A1, 0xF0FF, fun w => .sknp (fieldX w)⟩,
    ⟨0xF007, 0xF0FF, fun w => .ldVxDt (fieldX w)⟩,
    ⟨0xF00A, 0xF0FF, fun w => .ldVxK (fieldX w)⟩,
    ⟨0xF015, 0xF0FF, fun w => .ldDtVx (fieldX w)⟩,
    ⟨0xF018, 0xF0FF, fun w => .ldStVx (fieldX w)⟩,
    ⟨0xF01E, 0xF0FF, fun w => .addIVx (fieldX w)⟩,
    ⟨0xF029, 0xF0FF, fun w => .ldFVx (fieldX w)⟩,
    ⟨0xF033, 0xF0FF, fun w => .ldBVx (fieldX w)⟩,
    ⟨0xF055, 0xF0FF, fun w => .ldMemVx (fieldX w)⟩,
    ⟨0xF065, 0xF0FF, fun w => .ldVxMem (fieldX w)⟩ ]

/-- The complete opcode map, in the table's order (R95). The rows are disjoint (`Laws.opcodeRows_disjoint`), so the order
does not matter. -/
def opcodeRows : List OpcodeRow :=
  opcodeRowsLow ++ opcodeRowsAlu ++ opcodeRowsMid ++ opcodeRowsHigh

/-- The instruction of a word; `none` for the illegal words of R97. -/
def decodeWord (w : Word) : Option Instr :=
  (opcodeRows.find? (fun r => r.selects w)).map (fun r => r.build w)

/-- Why bytes are not an instruction. -/
inductive DecodeError where
  /-- Fewer than two bytes: no instruction is shorter (R90). -/
  | truncated
  /-- The word matches no row of R95 (R97). -/
  | unknownOpcode (w : Word)
  deriving DecidableEq, Repr

/-- The word of two bytes, big-endian: the first byte holds bits 15 to 8 (spec/20_memory.md R66). -/
def wordOfBytes (hi lo : Byte) : Word := hi ++ lo

/-- The first instruction of a sequence of bytes and the bytes after it (R90, R95). -/
def decode : List Byte → Except DecodeError (Instr × List Byte)
  | hi :: lo :: rest =>
    match decodeWord (wordOfBytes hi lo) with
    | some ins => .ok (ins, rest)
    | none => .error (.unknownOpcode (wordOfBytes hi lo))
  | _ => .error .truncated

/-- A register number as a four-bit field. -/
def regBits (x : Reg) : BitVec 4 := BitVec.ofFin x

/-- Format `NNN` (R92). -/
def encodeNNN (op : BitVec 4) (nnn : Addr) : Word := op ++ nnn

/-- Format `XKK` (R92), and `XSUB` with the secondary opcode as `kk`. -/
def encodeXKK (op : BitVec 4) (x : Reg) (kk : Byte) : Word := op ++ regBits x ++ kk

/-- Format `XYN` (R92). -/
def encodeXYN (op : BitVec 4) (x y : Reg) (n : BitVec 4) : Word := op ++ regBits x ++ regBits y ++ n

/-- The word of an instruction, from the formats of R92 and the patterns of R95. -/
def encode : Instr → Word
  | .cls => 0x00E0
  | .ret => 0x00EE
  | .jp nnn => encodeNNN 0x1 nnn
  | .call nnn => encodeNNN 0x2 nnn
  | .seImm x kk => encodeXKK 0x3 x kk
  | .sneImm x kk => encodeXKK 0x4 x kk
  | .seReg x y => encodeXYN 0x5 x y 0x0
  | .ldImm x kk => encodeXKK 0x6 x kk
  | .addImm x kk => encodeXKK 0x7 x kk
  | .ldReg x y => encodeXYN 0x8 x y 0x0
  | .or x y => encodeXYN 0x8 x y 0x1
  | .and x y => encodeXYN 0x8 x y 0x2
  | .xor x y => encodeXYN 0x8 x y 0x3
  | .addReg x y => encodeXYN 0x8 x y 0x4
  | .sub x y => encodeXYN 0x8 x y 0x5
  | .shr x y => encodeXYN 0x8 x y 0x6
  | .subn x y => encodeXYN 0x8 x y 0x7
  | .shl x y => encodeXYN 0x8 x y 0xE
  | .sneReg x y => encodeXYN 0x9 x y 0x0
  | .ldI nnn => encodeNNN 0xA nnn
  | .jpV0 nnn => encodeNNN 0xB nnn
  | .rnd x kk => encodeXKK 0xC x kk
  | .drw x y n => encodeXYN 0xD x y (BitVec.ofNat 4 n)
  | .skp x => encodeXKK 0xE x 0x9E
  | .sknp x => encodeXKK 0xE x 0xA1
  | .ldVxDt x => encodeXKK 0xF x 0x07
  | .ldVxK x => encodeXKK 0xF x 0x0A
  | .ldDtVx x => encodeXKK 0xF x 0x15
  | .ldStVx x => encodeXKK 0xF x 0x18
  | .addIVx x => encodeXKK 0xF x 0x1E
  | .ldFVx x => encodeXKK 0xF x 0x29
  | .ldBVx x => encodeXKK 0xF x 0x33
  | .ldMemVx x => encodeXKK 0xF x 0x55
  | .ldVxMem x => encodeXKK 0xF x 0x65

/-- The bytes of a word as memory holds them: high byte first (R66). -/
def bytesOfWord (w : Word) : List Byte := [w.extractLsb' 8 8, w.extractLsb' 0 8]

/-- The bytes of an instruction, in ascending address order. -/
def encodeBytes (ins : Instr) : List Byte := bytesOfWord (encode ins)

/-- The instruction this decoder reads from an instruction whose bits are `w`, of which the table gives the row `nbits`:
bits from `nbits` up are 0, and the one word of every instruction is laid out big-endian. -/
def decodeTableWord (nbits w : Nat) : Option Instr :=
  match decode (bytesOfWord (BitVec.ofNat 16 (w % 2 ^ nbits))) with
  | .ok (ins, _) => some ins
  | .error _ => none

end Sys2Proof
end

