-- ==== Sys2Proof/Config.lean ====
section
/-! DEFINITION. What the implementation fixes and what the spec leaves free (spec/00_scope.md R5, R7). -/

namespace Sys2Proof

/-- The parameters of the step relation that are constant for a run (R5, R7). They ride in `State.cfg` so that every
statement about a state holds for every setting (log entry 3). -/
structure Config where
  /-- `LEGACY_I_INCREMENT`: whether `Fx55` and `Fx65` move `I` past the block (R5, spec/42_index_memory.md R176, R177). -/
  legacyIIncrement : Bool
  /-- `FONT_DATA`: the bytes of the font region, from 0x050 on (spec/20_memory.md R62). -/
  fontData : Vector Byte 80
  deriving DecidableEq, Repr

/-- The default of `FONT_DATA`, glyphs 0 to F, row 0 first (R62). PRESUMED: the conventional CHIP-8 font, from general
knowledge and not from the source (spec/93_implementation_defined.md G1, log entry 2). unsafe: a claim that uses these bytes
holds of a machine with this font only. -/
def Config.defaultFont : Vector Byte 80 :=
  #v[0xF0, 0x90, 0x90, 0x90, 0xF0,  0x20, 0x60, 0x20, 0x20, 0x70,
     0xF0, 0x10, 0xF0, 0x80, 0xF0,  0xF0, 0x10, 0xF0, 0x10, 0xF0,
     0x90, 0x90, 0xF0, 0x10, 0x10,  0xF0, 0x80, 0xF0, 0x10, 0xF0,
     0xF0, 0x80, 0xF0, 0x90, 0xF0,  0xF0, 0x10, 0x20, 0x40, 0x40,
     0xF0, 0x90, 0xF0, 0x90, 0xF0,  0xF0, 0x90, 0xF0, 0x10, 0xF0,
     0xF0, 0x90, 0xF0, 0x90, 0x90,  0xE0, 0x90, 0xE0, 0x90, 0xE0,
     0xF0, 0x80, 0x80, 0x80, 0xF0,  0xE0, 0x90, 0x90, 0x90, 0xE0,
     0xF0, 0x80, 0xF0, 0x80, 0xF0,  0xF0, 0x80, 0xF0, 0x80, 0x80]

/-- The default parameters: the non-incrementing mode and the default font (R5). -/
def Config.default : Config where
  legacyIIncrement := false
  fontData := Config.defaultFont

/-- The random byte of the `k`-th `Cxkk`, `draw()` of spec/41_alu.md R154: a FREE VALUE. It has no body, so no proof can
know it and a statement holds whatever it is (spec/92_eei_decisions.md D17, log entry 4). safe. -/
opaque Config.randomByte : Nat → Byte

end Sys2Proof
end

