-- ==== Sys2Proof/Machine/State.lean ====
section
/-! DEFINITION. The state of the machine (spec/10_state.md R20 to R42), the transitions of its agents
(spec/00_scope.md R6), the reasons a step can stop, and the state after reset (spec/70_reset_and_hazards.md R270). -/

namespace Sys2Proof.Machine

/-- `Status` (spec/10_state.md R39). -/
inductive Status where
  | running
  | faulted
  deriving DecidableEq, Repr

/-- `FaultCause` (R39, spec/60_exceptions.md R221). The codes are `FaultCause.code`. -/
inductive FaultCause where
  /-- Code 0: no fault, the reset value. -/
  | none
  /-- Code 1: the fetched word matches no row of the opcode map. -/
  | unknownOpcode
  /-- Code 2: `2nnn` with the stack full or `00EE` with it empty. -/
  | stackFault
  /-- Code 3: an access whose range passes 0xFFF. -/
  | memoryFault
  /-- Code 4: `Ex9E` or `ExA1` with a key number above 15. -/
  | keyIndexFault
  deriving DecidableEq, Repr

/-- The transitions of R6, each atomic. The executor's are `cycle` and `keyWaitComplete`, the timer's is `tick`, the rest
are the host's. -/
inductive Transition where
  /-- Executor: fetch, advance `PC`, decode and execute one instruction (R94). -/
  | cycle
  /-- Executor: the second half of `Fx0A` (R203). -/
  | keyWaitComplete
  /-- Timer subsystem: one countdown step (R240). -/
  | tick
  /-- Input source: key `k` goes down (R245). -/
  | keyDown (k : Nat)
  /-- Input source: key `k` goes up (R246). -/
  | keyUp (k : Nat)
  /-- Controller: engage the pause gate (R243). -/
  | pause
  /-- Controller: release the pause gate (R244). -/
  | resume
  /-- Renderer: read the pixels and the redraw flag (R247). -/
  | readScreen
  /-- Renderer: clear the redraw flag (R248). -/
  | clearRedraw
  /-- Diagnostics: take a snapshot (R250). -/
  | dump
  /-- Loader: construct and initialise the machine (R270). -/
  | reset
  /-- Loader: copy a program to 0x200 (R272). -/
  | loadRom (bytes : List Byte)
  deriving DecidableEq, Repr

/-- Where the machine stands in the boot order of R272 and R273. The MODEL's own mark (log entries 9, 10): no register of the
spec's, read only to say which `LoadRom` and which `Cycle` the spec defines. -/
inductive Boot where
  /-- After `Reset`, before the first `Cycle`: `LoadRom` is defined. -/
  | ready
  /-- A `Cycle` has been taken: the spec says nothing of a `LoadRom` now. -/
  | started
  /-- A `LoadRom` was rejected: no `Cycle` may follow without a new `Reset` and a successful load. -/
  | loadFailed
  /-- A `Reset` after a rejected `LoadRom`: a successful load is still due before a `Cycle`. -/
  | reloadDue
  deriving DecidableEq, Repr

/-- Memory as plain data: the (address, byte) pairs that differ from what an unlisted address reads as, addresses strictly
rising (`Memory.wf`). -/
abbrev Memory := List Host.Cell

/-- `Screen[c][r]`: 64 columns of 32 one-bit pixels (spec/10_state.md R32). -/
abbrev Screen := Vector (Vector Bool 32) 64

/-- Everything the spec gives the machine (spec/10_state.md R42) and, after `beep`, the model's own fields. -/
structure State where
  /-- `V[0]` to `V[15]`; `V[15]` is VF (R20, R22). -/
  v : Vector Byte 16
  /-- The index register `I` (R24). -/
  i : Word
  /-- The program counter (R25). -/
  pc : Word
  /-- The call stack, a register file of its own (R26). -/
  stack : Vector Word 16
  /-- The call-stack pointer (R27). -/
  sp : Slot
  /-- The delay timer (R29). -/
  dt : Byte
  /-- The sound timer (R30). -/
  st : Byte
  /-- The 4096 bytes of memory (R31, spec/20_memory.md R60). -/
  mem : Memory
  /-- The screen (R32). -/
  screen : Screen
  /-- The redraw flag (R33). -/
  redraw : Bool
  /-- The key latch: `true` means down (R34). -/
  keys : Vector Bool 16
  /-- The last-key slot; `none` is `EMPTY` (R35). -/
  lastKey : Option Key
  /-- The pause gate (R36). -/
  paused : Bool
  /-- The instruction register (R37). -/
  ir : Word
  /-- An `Fx0A` has been fetched and has not received its key (R38). -/
  waitKey : Bool
  /-- `Status` (R39). -/
  status : Status
  /-- `FaultCause` (R39). -/
  faultCause : FaultCause
  /-- `FaultInfo` (R39). -/
  faultInfo : Word
  /-- The level of the beep output (R40). -/
  beep : Bool
  /-- MODEL: `LEGACY_I_INCREMENT` and `FONT_DATA`, constant for a run (spec/00_scope.md R5, R7, log entry 3). -/
  cfg : Config
  /-- MODEL: how many random bytes have been drawn (spec/41_alu.md R154, log entry 4). -/
  draws : Nat
  /-- MODEL: the transitions still to be taken, the next one first; when it is empty the executor moves (the parameter
  `SCHEDULE` of R5, log entry 5). -/
  schedule : List Transition
  /-- MODEL: the place in the boot order (log entries 9, 10). -/
  boot : Boot
  /-- MODEL: the events `beep(on)` sent to the beep sink, the newest first (spec/60_exceptions.md R242, log entry 11). -/
  beepLog : List Bool
  deriving DecidableEq, Repr

/-- The machine after `Reset` with the given parameters: every element at the reset value of spec/10_state.md R20 to R40.
Memory lists nothing, so it reads as the font table at 0x050 to 0x09F and 0 elsewhere (R31). The model's own fields start
empty (log entries 4, 5, 10, 11). -/
def State.resetWith (cfg : Config) : State where
  v := Vector.replicate 16 0
  i := 0
  pc := 0x200
  stack := Vector.replicate 16 0
  sp := 0
  dt := 0
  st := 0
  mem := []
  screen := Vector.replicate 64 (Vector.replicate 32 false)
  redraw := false
  keys := Vector.replicate 16 false
  lastKey := none
  paused := false
  ir := 0
  waitKey := false
  status := .running
  faultCause := .none
  faultInfo := 0
  beep := false
  cfg := cfg
  draws := 0
  schedule := []
  boot := .ready
  beepLog := []

/-- The machine right after reset with the default parameters (R5, R270). -/
def State.reset : State := State.resetWith Config.default

/-- Why a step stops with a fault. The four faults of the spec are no outcome of this kind: they are TAKEN, a next state with
the fault record written (spec/60_exceptions.md R224). -/
inductive Fault where
  /-- Raised by `step` alone, in a FAULTED machine for which nothing is scheduled: the executor has no step until `Reset`
  (spec/60_exceptions.md R226) and no other agent is to move. It carries the fault record. safe: the model stops where the
  hardware would stand still (log entry 7). -/
  | halted (cause : FaultCause) (info : Word)
  deriving DecidableEq, Repr

/-- Why the model gives a step no meaning. -/
inductive Refusal where
  /-- Raised by an arm of `exec` for an instruction that has no meaning yet; no arm does. safe. -/
  | notModelled (mnemonic : String)
  /-- Raised by the host transition `LoadRom` after the first `Cycle`: "this spec says nothing of a load into a running
  machine" (spec/70_reset_and_hazards.md R272, spec/93_implementation_defined.md U15, log entry 9). safe. -/
  | loadRomIntoRunningMachine
  deriving DecidableEq, Repr

end Sys2Proof.Machine
end

