-- ==== Sys2Proof/Machine/Ops.lean ====
section
/-! DEFINITION. The named operations over memory, registers and the screen, taking a fault, and drawing a random byte
(spec/00_scope.md R9, spec/20_memory.md R63 to R66, spec/60_exceptions.md R224). -/

namespace Sys2Proof.Machine

/-! ### Memory -/

/-- Memory has the addresses 0x000 to 0xFFF (spec/20_memory.md R60). -/
def memSize : Nat := 4096

/-- Where the font region begins (R61). -/
def fontBase : Nat := 0x050

/-- Where the program region begins (R61). -/
def programBase : Nat := 0x200

/-- What an unlisted address reads as: the reset contents, `FONT_DATA` at 0x050 to 0x09F and 0 elsewhere
(spec/10_state.md R31, spec/20_memory.md R61; log entry 14). -/
def Memory.unlisted (font : Vector Byte 80) (a : Nat) : Byte :=
  if fontBase ≤ a then font.getD (a - fontBase) 0 else 0

/-- The byte listed at an address. -/
def Memory.lookup : Memory → Nat → Option Byte
  | [], _ => none
  | (b, v) :: rest, a => if a = b then some v else Memory.lookup rest a

/-- The byte at an address. -/
def Memory.read (font : Vector Byte 80) (m : Memory) (a : Nat) : Byte :=
  (Memory.lookup m a).getD (Memory.unlisted font a)

/-- Lists a byte at its place in the rising order. -/
def Memory.insert (a : Nat) (v : Byte) : Memory → Memory
  | [] => [(a, v)]
  | (b, w) :: rest =>
    if a < b then (a, v) :: (b, w) :: rest
    else if a = b then (a, v) :: rest
    else (b, w) :: Memory.insert a v rest

/-- Takes an address off the list. -/
def Memory.erase (a : Nat) : Memory → Memory
  | [] => []
  | (b, w) :: rest => if a = b then rest else (b, w) :: Memory.erase a rest

/-- Stores one byte, keeping the canonical form: a byte equal to what the unlisted address reads as is not listed. -/
def Memory.write (font : Vector Byte 80) (m : Memory) (a : Nat) (v : Byte) : Memory :=
  if v = Memory.unlisted font a then Memory.erase a m else Memory.insert a v m

/-- Stores bytes at `a`, `a + 1`, ... (R64). -/
def Memory.writeList (font : Vector Byte 80) (m : Memory) (a : Nat) : List Byte → Memory
  | [] => m
  | v :: rest => Memory.writeList font (Memory.write font m a v) (a + 1) rest

/-- Addresses strictly rising, from `lo` on. -/
def Memory.risingFrom (lo : Nat) : Memory → Bool
  | [] => true
  | (a, _) :: rest => lo ≤ a && Memory.risingFrom (a + 1) rest

/-- The canonical form: addresses strictly rising, each below 4096, and no entry equal to what its address reads as
unlisted. Two memories in this form that read alike are equal. -/
def Memory.wf (font : Vector Byte 80) (m : Memory) : Bool :=
  Memory.risingFrom 0 m && m.all (fun c => c.1 < memSize && c.2 != Memory.unlisted font c.1)

/-- The byte of memory at an address (spec/20_memory.md R69: a read changes nothing). -/
def State.readByte (s : State) (a : Nat) : Byte := Memory.read s.cfg.fontData s.mem a

/-- The bounds check of R63 and R64: the `n` bytes at `addr` lie within memory. `addr` is a natural number, reduced modulo
nothing (R65); a range of no bytes is always within. -/
def inBounds (addr n : Nat) : Bool := n = 0 || addr + n ≤ memSize

/-- The bytes at `addr`, `addr + 1`, ... without a check. -/
def State.readBytes (s : State) (addr n : Nat) : List Byte :=
  (List.range n).map (fun k => s.readByte (addr + k))

/-- `MemRead(addr, n)` of R63; `none` where the range passes 0xFFF, for which the caller raises `MemoryFault(addr)`. -/
def memRead (s : State) (addr n : Nat) : Option (List Byte) :=
  if inBounds addr n then some (s.readBytes addr n) else none

/-- `MemWrite(addr, n, bytes)` of R64 with `n` the number of bytes; `none` where the range passes 0xFFF, with no byte
written. -/
def memWrite (s : State) (addr : Nat) (bytes : List Byte) : Option State :=
  if inBounds addr bytes.length then
    some { s with mem := Memory.writeList s.cfg.fontData s.mem addr bytes }
  else none

/-! ### Registers -/

/-- The number of VF (spec/10_state.md R22). -/
def regVF : Reg := 15

/-- `V[x]` (spec/00_scope.md R9). -/
def State.readV (s : State) (x : Reg) : Byte := s.v[x]

/-- `V[x] <- b` (R9). No register is hardwired and none aliases another (spec/10_state.md R20). -/
def State.writeV (s : State) (x : Reg) (b : Byte) : State := { s with v := s.v.set x b }

/-- Writes `V[0]`, `V[1]`, ... from the list, as many registers as it has bytes (spec/42_index_memory.md R177). -/
def State.writeVs (s : State) (bytes : List Byte) : State :=
  { s with v := Vector.ofFn (fun k : Reg => bytes.getD k (s.readV k)) }

/-- `I <- w`. -/
def State.writeI (s : State) (w : Word) : State := { s with i := w }

/-- `PC <- target` (R9). -/
def State.writePC (s : State) (w : Word) : State := { s with pc := w }

/-- `skip`: `PC <- (PC + 2) mod 2^16` on the already advanced `PC` (spec/40_flow.md R120). -/
def skip (s : State) : State := s.writePC (s.pc + 2)

/-- Skips if the condition holds; a skip not taken changes nothing (R120). -/
def skipIf (c : Bool) (s : State) : State := if c then skip s else s

/-- `Stack[k]` (R9). -/
def State.readStack (s : State) (k : Slot) : Word := s.stack[k]

/-- The push of `2nnn`: `SP <- SP + 1; Stack[SP] <- w`. The caller has checked that `SP` is below 15
(spec/40_flow.md R122). -/
def pushStack (s : State) (w : Word) : State :=
  { s with sp := s.sp + 1, stack := s.stack.set (s.sp + 1 : Slot).val w (s.sp + 1 : Slot).isLt }

/-- The pop of `00EE`: `SP <- SP - 1`; the slot keeps its value. The caller has checked that `SP` is above 0
(spec/40_flow.md R123). -/
def popStack (s : State) : State := { s with sp := s.sp - 1 }

/-- Sends an event to the beep sink and holds it as the level of the output (spec/60_exceptions.md R242). -/
def emitBeep (on : Bool) (s : State) : State := { s with beep := on, beepLog := on :: s.beepLog }

/-! ### Screen -/

/-- `Screen[c][r]` (spec/00_scope.md R9). -/
def Screen.pixel (sc : Screen) (c : Fin 64) (r : Fin 32) : Bool := sc[c][r]

/-- `Screen[c][r] <- b`. -/
def Screen.setPixel (sc : Screen) (c : Fin 64) (r : Fin 32) (b : Bool) : Screen :=
  sc.set c (sc[c].set r b)

/-- The screen with every pixel off (spec/43_display.md R191). -/
def Screen.clear : Screen := Vector.replicate 64 (Vector.replicate 32 false)

/-! ### Faults and free values -/

/-- The numeric code of a fault cause (spec/60_exceptions.md R221). -/
def FaultCause.code : FaultCause → Nat
  | .none => 0
  | .unknownOpcode => 1
  | .stackFault => 2
  | .memoryFault => 3
  | .keyIndexFault => 4

/-- TAKING AN EXCEPTION: `raise F(info)` (R224). It writes `Status`, `FaultCause` and `FaultInfo` and nothing else: no
register is saved, `PC` moves to no handler and no mode changes. There is no return (R226): only `Reset` restores
`Status = RUNNING`. -/
def raise (cause : FaultCause) (info : Word) (s : State) : State :=
  { s with status := .faulted, faultCause := cause, faultInfo := info }

/-- The byte `draw()` gives in this state: a FREE VALUE (spec/41_alu.md R154, log entry 4). -/
def State.drawnByte (s : State) : Byte := Config.randomByte s.draws

/-- The state after a draw: the next draw is a fresh free value. -/
def State.afterDraw (s : State) : State := { s with draws := s.draws + 1 }

end Sys2Proof.Machine
end

