-- ==== Sys2Proof/Machine/Operands.lean ====
section
/-! DEFINITION. The operand forms: zero-extension, the address `I + k`, the font address, the decimal digits and the
register block (spec/30_encoding.md R93, spec/42_index_memory.md R170, R174 to R177). -/

namespace Sys2Proof.Machine

/-- `zext_16` of a register value (R93). -/
def zextByte (b : Byte) : Word := b.setWidth 16

/-- `zext_16(nnn)` (R93). -/
def zextAddr (nnn : Addr) : Word := nnn.setWidth 16

/-- The base address of a data access: `I` as a natural number, reduced modulo nothing (spec/20_memory.md R65). -/
def State.dataAddr (s : State) : Nat := s.i.toNat

/-- The glyph address of a register value: `0x050 + 5 * zext_16(V[x])` at 16 bits, with no mask (R174). -/
def glyphAddr (b : Byte) : Word := BitVec.ofNat 16 (fontBase + 5 * b.toNat)

/-- The hundreds, tens and ones of a byte, in ascending address order (R175). -/
def bcdDigits (b : Byte) : List Byte :=
  [BitVec.ofNat 8 (b.toNat / 100), BitVec.ofNat 8 (b.toNat / 10 % 10), BitVec.ofNat 8 (b.toNat % 10)]

/-- How many registers `Fx55` and `Fx65` move: `V[0]` to `V[x]` (R93). -/
def blockLen (x : Reg) : Nat := x.val + 1

/-- The values of `V[0]` to `V[x]`, in ascending register order (R176). -/
def State.readBlock (s : State) (x : Reg) : List Byte :=
  (List.range (blockLen x)).map (fun k => s.readV (Fin.ofNat 16 k))

/-- The post-increment of `Fx55` and `Fx65`: in legacy mode `I <- (I + x + 1) mod 2^16`, else `I` stays (R176, R177). -/
def bumpI (x : Reg) (s : State) : State :=
  if s.cfg.legacyIIncrement then s.writeI (s.i + BitVec.ofNat 16 (blockLen x)) else s

end Sys2Proof.Machine
end

