-- ==== Sys2Proof/Machine/Flags.lean ====
section
/-! DEFINITION. Every value VF takes as a flag, and the order result first, flag last (spec/10_state.md R22, R23,
spec/41_alu.md R140 to R142). -/

namespace Sys2Proof.Machine

/-- A flag as the value of VF: 1 or 0. -/
def flagByte (b : Bool) : Byte := if b then 1 else 0

/-- The carry of `8xy4`: the exact sum passes 255 (R149). -/
def carryOut (a b : Byte) : Bool := 255 < a.toNat + b.toNat

/-- The not-borrow of `a - b`: `a >= b` (R150, R152). -/
def notBorrow (a b : Byte) : Bool := b.toNat ≤ a.toNat

/-- The bit `8xy6` shifts out: bit 0 of the old value (R151). -/
def droppedLow (a : Byte) : Bool := a.getLsbD 0

/-- The bit `8xyE` shifts out: bit 7 of the old value (R153). -/
def droppedHigh (a : Byte) : Bool := a.getLsbD 7

/-- The sum modulo 256 (R140, R149). -/
def sumByte (a b : Byte) : Byte := BitVec.ofNat 8 (a.toNat + b.toNat)

/-- The difference `a - b` modulo 256 (R140, R150, R152). -/
def diffByte (a b : Byte) : Byte := BitVec.ofInt 8 ((a.toNat : Int) - b.toNat)

/-- Result first, flag last: with `x = 15` VF ends as the flag (R142). Both are computed from the operands' values before
the instruction (R141). -/
def writeResultFlag (x : Reg) (result : Byte) (flag : Bool) (s : State) : State :=
  (s.writeV x result).writeV regVF (flagByte flag)

end Sys2Proof.Machine
end

