-- ==== Sys2Proof/Machine/Alu.lean ====
section
/-! DEFINITION. The meanings of the register loads, arithmetic, logic, shifts and the random byte (spec/41_alu.md). None
accesses memory and none can fault. -/

namespace Sys2Proof.Machine

/-- `6xkk`, load immediate (R143). -/
def execLdImm (x : Reg) (kk : Byte) (s : State) : Host.Outcome State Fault Refusal :=
  .next (s.writeV x kk)

/-- `7xkk`, add immediate: no flag (R144). -/
def execAddImm (x : Reg) (kk : Byte) (s : State) : Host.Outcome State Fault Refusal :=
  .next (s.writeV x (sumByte (s.readV x) kk))

/-- `8xy0`, copy register (R145). -/
def execLdReg (x y : Reg) (s : State) : Host.Outcome State Fault Refusal :=
  .next (s.writeV x (s.readV y))

/-- `8xy1`, bitwise OR: VF is untouched (R146). -/
def execOr (x y : Reg) (s : State) : Host.Outcome State Fault Refusal :=
  .next (s.writeV x (s.readV x ||| s.readV y))

/-- `8xy2`, bitwise AND: VF is untouched (R147). -/
def execAnd (x y : Reg) (s : State) : Host.Outcome State Fault Refusal :=
  .next (s.writeV x (s.readV x &&& s.readV y))

/-- `8xy3`, bitwise exclusive OR: VF is untouched (R148). -/
def execXor (x y : Reg) (s : State) : Host.Outcome State Fault Refusal :=
  .next (s.writeV x (s.readV x ^^^ s.readV y))

/-- `8xy4`, add with carry out (R149). -/
def execAddReg (x y : Reg) (s : State) : Host.Outcome State Fault Refusal :=
  .next (writeResultFlag x (sumByte (s.readV x) (s.readV y)) (carryOut (s.readV x) (s.readV y)) s)

/-- `8xy5`, subtract with not-borrow out (R150). -/
def execSub (x y : Reg) (s : State) : Host.Outcome State Fault Refusal :=
  .next (writeResultFlag x (diffByte (s.readV x) (s.readV y)) (notBorrow (s.readV x) (s.readV y)) s)

/-- `8xy6`, logical shift right by one, in place: the field `y` is ignored (R151). -/
def execShr (x _y : Reg) (s : State) : Host.Outcome State Fault Refusal :=
  .next (writeResultFlag x (s.readV x >>> 1) (droppedLow (s.readV x)) s)

/-- `8xy7`, reverse subtract `V[y] - V[x]` with not-borrow out (R152). -/
def execSubn (x y : Reg) (s : State) : Host.Outcome State Fault Refusal :=
  .next (writeResultFlag x (diffByte (s.readV y) (s.readV x)) (notBorrow (s.readV y) (s.readV x)) s)

/-- `8xyE`, shift left by one, in place: the field `y` is ignored (R153). -/
def execShl (x _y : Reg) (s : State) : Host.Outcome State Fault Refusal :=
  .next (writeResultFlag x (s.readV x <<< 1) (droppedHigh (s.readV x)) s)

/-- `Cxkk`, masked random byte: the drawn byte is a free value (R154, log entry 4). -/
def execRnd (x : Reg) (kk : Byte) (s : State) : Host.Outcome State Fault Refusal :=
  .next (s.afterDraw.writeV x (s.drawnByte &&& kk))

end Sys2Proof.Machine
end

