-- ==== Sys2Proof/Machine/Display.lean ====
section
/-! DEFINITION. The meanings of the display instructions (spec/43_display.md). -/

namespace Sys2Proof.Machine

/-- `00E0`, clear the screen and set the redraw flag (R191). -/
def execCls (s : State) : Host.Outcome State Fault Refusal :=
  .next { s with screen := Screen.clear, redraw := true }

/-- The sprite bit at horizontal offset `b` of a row byte: bit 7 is the leftmost (R192). -/
def spriteBit (row : Byte) (b : Nat) : Bool := row.getLsbD (7 - b)

/-- The screen and the collision seen so far. -/
abbrev Canvas := Screen × Bool

/-- One pixel of the draw: a set sprite bit on an on pixel is a collision, and the pixel becomes the XOR (R193). -/
def blitPixel (c : Fin 64) (r : Fin 32) (bit : Bool) (cv : Canvas) : Canvas :=
  (cv.1.setPixel c r (cv.1.pixel c r ^^ bit), cv.2 || (bit && cv.1.pixel c r))

/-- One row of the sprite, offsets 0 to 7: columns `(vx + b) mod 64` (R193). -/
def blitRow (vx : Nat) (r : Fin 32) (row : Byte) (cv : Canvas) : Canvas :=
  (List.range 8).foldl (fun acc b => blitPixel (Fin.ofNat 64 (vx + b)) r (spriteBit row b) acc) cv

/-- The rows of the sprite from the top, rows `(vy + r) mod 32` (R193). -/
def blitRows (vx vy : Nat) : List Byte → Canvas → Canvas
  | [], cv => cv
  | row :: rest, cv => blitRows vx (vy + 1) rest (blitRow vx (Fin.ofNat 32 vy) row cv)

/-- `Dxyn`, draw with XOR and report the collision in VF. Both coordinates are read before VF is written, the whole range is
checked before anything changes, and a sprite of no rows reads no memory (R193). -/
def execDrw (x y : Reg) (n : Nat) (s : State) : Host.Outcome State Fault Refusal :=
  match memRead s s.dataAddr n with
  | some rows =>
    let drawn := blitRows (s.readV x).toNat (s.readV y).toNat rows (s.screen, false)
    .next { s.writeV regVF (flagByte drawn.2) with screen := drawn.1, redraw := true }
  | none => .next (raise .memoryFault s.i s)

end Sys2Proof.Machine
end

