-- ==== Sys2Proof/Machine/Flow.lean ====
section
/-! DEFINITION. The meanings of the control transfers (spec/40_flow.md). Each starts from the state after fetch: `IR` holds
the word and `PC` the address of the next instruction (spec/00_scope.md R10). -/

namespace Sys2Proof.Machine

/-- `00EE`, return (R123). -/
def execRet (s : State) : Host.Outcome State Fault Refusal :=
  if s.sp = 0 then .next (raise .stackFault s.ir s)
  else .next (popStack (s.writePC (s.readStack s.sp)))

/-- `1nnn`, jump (R121). -/
def execJp (nnn : Addr) (s : State) : Host.Outcome State Fault Refusal :=
  .next (s.writePC (zextAddr nnn))

/-- `2nnn`, call: the check comes before anything is written (R122). -/
def execCall (nnn : Addr) (s : State) : Host.Outcome State Fault Refusal :=
  if s.sp = 15 then .next (raise .stackFault s.ir s)
  else .next ((pushStack s s.pc).writePC (zextAddr nnn))

/-- `Bnnn`, jump with offset `V[0]`: at most 0x10FE, not reduced to 12 bits (R124). -/
def execJpV0 (nnn : Addr) (s : State) : Host.Outcome State Fault Refusal :=
  .next (s.writePC (zextByte (s.readV 0) + zextAddr nnn))

/-- `3xkk`, skip if equal to immediate (R125). -/
def execSeImm (x : Reg) (kk : Byte) (s : State) : Host.Outcome State Fault Refusal :=
  .next (skipIf (s.readV x == kk) s)

/-- `4xkk`, skip if not equal to immediate (R126). -/
def execSneImm (x : Reg) (kk : Byte) (s : State) : Host.Outcome State Fault Refusal :=
  .next (skipIf (s.readV x != kk) s)

/-- `5xy0`, skip if registers equal (R127). -/
def execSeReg (x y : Reg) (s : State) : Host.Outcome State Fault Refusal :=
  .next (skipIf (s.readV x == s.readV y) s)

/-- `9xy0`, skip if registers differ (R128). -/
def execSneReg (x y : Reg) (s : State) : Host.Outcome State Fault Refusal :=
  .next (skipIf (s.readV x != s.readV y) s)

end Sys2Proof.Machine
end

