-- ==== Sys2Proof/Machine/IndexMemory.lean ====
section
/-! DEFINITION. The meanings of the index register and memory instructions (spec/42_index_memory.md). Bounds are checked
before anything is written (R171). -/

namespace Sys2Proof.Machine

/-- `Annn`, load index (R172). -/
def execLdI (nnn : Addr) (s : State) : Host.Outcome State Fault Refusal :=
  .next (s.writeI (zextAddr nnn))

/-- `Fx1E`, add register to index modulo 2^16: no flag (R173). -/
def execAddIVx (x : Reg) (s : State) : Host.Outcome State Fault Refusal :=
  .next (s.writeI (s.i + zextByte (s.readV x)))

/-- `Fx29`, point `I` at a font glyph (R174). -/
def execLdFVx (x : Reg) (s : State) : Host.Outcome State Fault Refusal :=
  .next (s.writeI (glyphAddr (s.readV x)))

/-- `Fx33`, store binary-coded decimal at `I`, `I + 1`, `I + 2` (R175). -/
def execLdBVx (x : Reg) (s : State) : Host.Outcome State Fault Refusal :=
  match memWrite s s.dataAddr (bcdDigits (s.readV x)) with
  | some t => .next t
  | none => .next (raise .memoryFault s.i s)

/-- `Fx55`, store `V[0]` to `V[x]` at `I` to `I + x` (R176). -/
def execLdMemVx (x : Reg) (s : State) : Host.Outcome State Fault Refusal :=
  match memWrite s s.dataAddr (s.readBlock x) with
  | some t => .next (bumpI x t)
  | none => .next (raise .memoryFault s.i s)

/-- `Fx65`, load `V[0]` to `V[x]` from `I` to `I + x` (R177). -/
def execLdVxMem (x : Reg) (s : State) : Host.Outcome State Fault Refusal :=
  match memRead s s.dataAddr (blockLen x) with
  | some bytes => .next (bumpI x (s.writeVs bytes))
  | none => .next (raise .memoryFault s.i s)

end Sys2Proof.Machine
end

