-- ==== Sys2Proof/Machine/KeysTimers.lean ====
section
/-! DEFINITION. The meanings of the key and timer instructions (spec/44_keys_timers.md). -/

namespace Sys2Proof.Machine

/-- The skip of `Ex9E` and `ExA1`: skips if the key numbered `V[x]` is in the wanted state; a number above 15 raises
`KeyIndexFault` before any change (R200, R201). -/
def skipIfKey (wanted : Bool) (x : Reg) (s : State) : State :=
  if h : (s.readV x).toNat < 16 then skipIf (s.keys[(s.readV x).toNat] == wanted) s
  else raise .keyIndexFault (zextByte (s.readV x)) s

/-- `Ex9E`, skip if the key is down (R200). -/
def execSkp (x : Reg) (s : State) : Host.Outcome State Fault Refusal :=
  .next (skipIfKey true x s)

/-- `ExA1`, skip if the key is up (R201). -/
def execSknp (x : Reg) (s : State) : Host.Outcome State Fault Refusal :=
  .next (skipIfKey false x s)

/-- `Fx0A`, wait for a key, first half: `WaitKey <- 1`. The second half is the executor's transition `KeyWaitComplete`, which
takes `x` from `IR` (R202, R203). -/
def execLdVxK (_x : Reg) (s : State) : Host.Outcome State Fault Refusal :=
  .next { s with waitKey := true }

/-- `Fx07`, read the delay timer (R205). -/
def execLdVxDt (x : Reg) (s : State) : Host.Outcome State Fault Refusal :=
  .next (s.writeV x s.dt)

/-- `Fx15`, set the delay timer (R206). -/
def execLdDtVx (x : Reg) (s : State) : Host.Outcome State Fault Refusal :=
  .next { s with dt := s.readV x }

/-- `Fx18`, set the sound timer; a value other than 0 emits `beep(true)`, and 0 emits nothing (R207). -/
def execLdStVx (x : Reg) (s : State) : Host.Outcome State Fault Refusal :=
  let t := { s with st := s.readV x }
  .next (if s.readV x = 0 then t else emitBeep true t)

end Sys2Proof.Machine
end

