-- ==== Sys2Proof/Machine/Executor.lean ====
section
/-! DEFINITION. The executor's transitions: `Cycle` (spec/30_encoding.md R94) and `KeyWaitComplete`
(spec/44_keys_timers.md R203). -/

namespace Sys2Proof.Machine

/-- A `Cycle` may follow in the boot order: no `LoadRom` was rejected without a new `Reset` and a successful load since
(spec/70_reset_and_hazards.md R272, log entry 10). -/
def State.bootAllowsCycle (s : State) : Bool :=
  match s.boot with
  | .ready => true
  | .started => true
  | .loadFailed => false
  | .reloadDue => false

/-- `Cycle` has a step: `Status = RUNNING`, `Paused = 0`, `WaitKey = 0` (R94), and the boot order allows it. -/
def State.cycleEnabled (s : State) : Bool :=
  s.status == .running && !s.paused && !s.waitKey && s.bootAllowsCycle

/-- The key `KeyWaitComplete` delivers, if it has a step: `Status = RUNNING`, `WaitKey = 1`, `Paused = 0` and
`LastKey` not `EMPTY` (R203). -/
def State.deliverableKey (s : State) : Option Key :=
  if s.status == .running && s.waitKey && !s.paused then s.lastKey else none

/-- Steps 2 and 3 of `Cycle`: `IR <- word; PC <- (PC + 2) mod 2^16`, before decode and execute (R94). -/
def State.afterFetch (s : State) (word : Word) : State := { s with ir := word, pc := s.pc + 2 }

/-- The word of the two bytes a fetch read, big-endian (spec/20_memory.md R66). -/
def fetchedWord : List Byte → Word
  | hi :: lo :: _ => wordOfBytes hi lo
  | _ => 0

/-- Steps 1 to 5 of `Cycle` (R94): a fetch with `PC > 0xFFE` raises `MemoryFault(PC)` and changes nothing else; a word that
matches no row raises `UnknownOpcode(IR)` after the advance of `PC`. -/
def fetchDecodeExecute (s : State) : Host.Outcome State Fault Refusal :=
  match memRead s s.pc.toNat 2 with
  | none => .next (raise .memoryFault s.pc s)
  | some bytes =>
    match decode bytes with
    | .ok (ins, _) => exec ins (s.afterFetch (fetchedWord bytes))
    | .error _ => .next (raise .unknownOpcode (fetchedWord bytes) (s.afterFetch (fetchedWord bytes)))

/-- `Cycle`, or nothing while it has no step (log entry 6). A `Cycle` that is taken marks the machine as started. -/
def cycle (s : State) : Host.Outcome State Fault Refusal :=
  if s.cycleEnabled then fetchDecodeExecute { s with boot := .started } else .next s

/-- The second half of `Fx0A`: `V[IR[11:8]] <- LastKey; LastKey <- EMPTY; WaitKey <- 0` (R203). -/
def deliverKey (k : Key) (s : State) : State :=
  { s.writeV (fieldX s.ir) (BitVec.ofNat 8 k.val) with lastKey := none, waitKey := false }

/-- `KeyWaitComplete`, or nothing while it has no step (log entry 6). -/
def keyWaitComplete (s : State) : State :=
  match s.deliverableKey with
  | some k => deliverKey k s
  | none => s

/-- The executor's next transition: `KeyWaitComplete` while an `Fx0A` waits, else `Cycle` (R202, R203). -/
def executorTurn (s : State) : Host.Outcome State Fault Refusal :=
  if s.waitKey then .next (keyWaitComplete s) else cycle s

end Sys2Proof.Machine
end

