-- ==== Sys2Proof/Machine/Agents.lean ====
section
/-! DEFINITION. The transitions of the timer subsystem and the host (spec/60_exceptions.md R240 to R250,
spec/70_reset_and_hazards.md R270, R272), what each returns to the host, and the one dispatch over all transitions
(spec/00_scope.md R6). -/

namespace Sys2Proof.Machine

/-! ### Timer subsystem -/

/-- The sound timer's part of `Tick`: decrement above zero, and `beep(false)` exactly when it reaches 0 (R240). -/
def tickSound (s : State) : State :=
  if s.st = 0 then s
  else if s.st = 1 then emitBeep false { s with st := 0 }
  else { s with st := s.st - 1 }

/-- The delay timer's part of `Tick`: decrement above zero (R240). -/
def tickDelay (s : State) : State := if s.dt = 0 then s else { s with dt := s.dt - 1 }

/-- `Tick`: the sound timer, then the delay timer; no step while `Paused = 1`. It does not depend on `Status` or `WaitKey`
(R240). -/
def tick (s : State) : State := if s.paused then s else tickDelay (tickSound s)

/-! ### Input source -/

/-- `KeyDown(k)`: a number above 15 is rejected and nothing changes (R245). The pause gate does not hold it. -/
def keyDown (k : Nat) (s : State) : State :=
  if h : k < 16 then { s with keys := s.keys.set k true, lastKey := some ⟨k, h⟩ } else s

/-- `KeyUp(k)`: a number above 15 is rejected and nothing changes; `LastKey` stays (R246). -/
def keyUp (k : Nat) (s : State) : State :=
  if h : k < 16 then { s with keys := s.keys.set k false } else s

/-! ### Controller and renderer -/

/-- `Pause`, idempotent (R243). -/
def pause (s : State) : State := { s with paused := true }

/-- `Resume`, a no-op on a machine that is not paused (R244). -/
def resume (s : State) : State := { s with paused := false }

/-- `ClearRedraw` (R248). -/
def clearRedraw (s : State) : State := { s with redraw := false }

/-- What `ReadScreen` returns: the 64 x 32 grid of byte values 0 or 1 and the redraw signal (R247). A pure read. -/
def readScreen (s : State) : Vector (Vector Byte 32) 64 × Bool :=
  (s.screen.map (fun col => col.map flagByte), s.redraw)

/-- The items of the diagnostics snapshot (R250). The text format is outside the core. -/
structure Snapshot where
  ir : Word
  v : Vector Byte 16
  stack : Vector Word 16
  sp : Slot
  i : Word
  pc : Word
  dt : Byte
  st : Byte
  deriving DecidableEq, Repr

/-- What `Dump` returns. A pure read (R250). -/
def dump (s : State) : Snapshot where
  ir := s.ir
  v := s.v
  stack := s.stack
  sp := s.sp
  i := s.i
  pc := s.pc
  dt := s.dt
  st := s.st

/-! ### Loader -/

/-- The place in the boot order after `Reset`: a rejected load still owes a successful one (R272, log entry 10). -/
def bootAfterReset : Boot → Boot
  | .ready => .ready
  | .started => .ready
  | .loadFailed => .reloadDue
  | .reloadDue => .reloadDue

/-- `Reset`: every element takes its reset value (R270). The parameters, the draws already taken, what is still scheduled and
the events already sent are no elements of the machine and stay; no `beep` event is emitted. -/
def reset (s : State) : State :=
  { State.resetWith s.cfg with
    draws := s.draws, schedule := s.schedule, beepLog := s.beepLog, boot := bootAfterReset s.boot }

/-- The most bytes a program may have: `4096 - 0x200` (R272). -/
def romMax : Nat := memSize - programBase

/-- The place in the boot order after an accepted load: a load that was due is done (R272, log entry 10). -/
def bootAfterLoad : Boot → Boot
  | .ready => .ready
  | .started => .started
  | .loadFailed => .loadFailed
  | .reloadDue => .ready

/-- `LoadRom(bytes)` before the first `Cycle`: more than 3584 bytes are rejected, with no byte written and no element
changed; else the bytes are copied verbatim from 0x200 on and nothing else changes (R272). -/
def loadRom (bytes : List Byte) (s : State) : State :=
  if romMax < bytes.length then { s with boot := .loadFailed }
  else { s with mem := Memory.writeList s.cfg.fontData s.mem programBase bytes, boot := bootAfterLoad s.boot }

/-- `LoadRom` is defined only between `Reset` and the first `Cycle`; at another time the spec says nothing, and the model
refuses by name (R272, log entry 9). -/
def loadRomTransition (bytes : List Byte) (s : State) : Host.Outcome State Fault Refusal :=
  match s.boot with
  | .started => .refused .loadRomIntoRunningMachine
  | .ready | .loadFailed | .reloadDue => .next (loadRom bytes s)

/-! ### What a transition returns to the host -/

/-- The result of a host call (R228, R245, R246, R247, R250, R272). It is no state (log entry 13). -/
inductive Reply where
  /-- The call returns nothing. -/
  | done
  /-- The key index is outside 0 to 15: the call is rejected. -/
  | keyRejected
  /-- The program is longer than 3584 bytes. -/
  | romLoadError
  /-- The pixels and the redraw signal. -/
  | screen (pixels : Vector (Vector Byte 32) 64) (redraw : Bool)
  /-- The snapshot. -/
  | snapshot (d : Snapshot)
  deriving DecidableEq, Repr

/-- What a transition taken in state `s` returns to its caller. -/
def reply (t : Transition) (s : State) : Reply :=
  match t with
  | .cycle | .keyWaitComplete | .tick | .pause | .resume | .clearRedraw | .reset => .done
  | .keyDown k => if k < 16 then .done else .keyRejected
  | .keyUp k => if k < 16 then .done else .keyRejected
  | .readScreen => .screen (readScreen s).1 (readScreen s).2
  | .dump => .snapshot (dump s)
  | .loadRom bytes => if romMax < bytes.length then .romLoadError else .done

/-! ### All transitions -/

/-- One transition of R6, taken whole. The pause gate holds `Cycle`, `KeyWaitComplete` and `Tick` only (R243); the host's
transitions act in every state (R227, R245). -/
def perform (t : Transition) (s : State) : Host.Outcome State Fault Refusal :=
  match t with
  | .cycle => cycle s
  | .keyWaitComplete => .next (keyWaitComplete s)
  | .tick => .next (tick s)
  | .keyDown k => .next (keyDown k s)
  | .keyUp k => .next (keyUp k s)
  | .pause => .next (pause s)
  | .resume => .next (resume s)
  | .readScreen => .next s
  | .clearRedraw => .next (clearRedraw s)
  | .dump => .next s
  | .reset => .next (reset s)
  | .loadRom bytes => loadRomTransition bytes s

/-- With nothing scheduled the executor moves. In a FAULTED machine it has no step until `Reset`, so the run is over: the
fault outcome `halted` with the record (spec/60_exceptions.md R226, log entry 7). -/
def unscheduledTurn (s : State) : Host.Outcome State Fault Refusal :=
  match s.status with
  | .running => executorTurn s
  | .faulted => .fault (.halted s.faultCause s.faultInfo)

/-- The next transition in the total order of spec/20_memory.md R71: the first scheduled one, else the executor's. -/
def nextTransition (s : State) : Host.Outcome State Fault Refusal :=
  match s.schedule with
  | [] => unscheduledTurn s
  | t :: rest => perform t { s with schedule := rest }

/-- Opens what can hold the executor back, so that its next turn is a `Cycle`: nothing scheduled, `Status = RUNNING`,
`Paused = 0`, `WaitKey = 0`, and no load due. In a machine right after reset it changes nothing. -/
def readyForCycle (s : State) : State :=
  { s with
    schedule := [], status := .running, paused := false, waitKey := false,
    boot := if s.bootAllowsCycle then s.boot else .ready }

/-- Stores the word of an instruction where the next fetch reads: the table's `nbits` bits of `w`, all above them 0, big-endian
at `PC` (spec/20_memory.md R66). Where `PC` passes 0xFFE no instruction can be fetched and nothing is stored. -/
def placeWord (s : State) (nbits w : Nat) : State :=
  (memWrite s s.pc.toNat (bytesOfWord (BitVec.ofNat 16 (w % 2 ^ nbits)))).getD s

end Sys2Proof.Machine
end

