-- ==== Sys2Proof/Machine/Step.lean ====
section
/-! DEFINITION. One step of the machine: the next atomic transition in the total order (spec/00_scope.md R6,
spec/20_memory.md R71). -/

namespace Sys2Proof.Machine

/-- One transition: the first of the schedule, or the executor's where nothing is scheduled (log entry 5). -/
def step : State → Host.Outcome State Fault Refusal := nextTransition

/-- `s` with an instruction where `step` fetches next and nothing that holds its `Cycle` back (log entry 15). -/
def State.withFetchWord (s : State) (nbits w : Nat) : State := placeWord (readyForCycle s) nbits w

end Sys2Proof.Machine
end

