-- ==== Sys2Proof/Laws/Memory.lean ====
section
/-! SUPPORT. The laws of memory: a read after a write, the canonical form kept by every memory operation, and equal reads
mean equal memories. -/

namespace Sys2Proof.Machine

variable {font : Vector Byte 80} {m n : Memory} {a b lo : Nat} {v w : Byte}

/-! ### The list operations -/

theorem Memory.lookup_insert_same : Memory.lookup (Memory.insert a v m) a = some v := by
  induction m with
  | nil => simp [Memory.insert, Memory.lookup]
  | cons c rest ih =>
    obtain ⟨b, w⟩ := c
    unfold Memory.insert
    split
    · simp [Memory.lookup]
    · split
      · simp [Memory.lookup]
      · rename_i h; simp [Memory.lookup, h, ih]

theorem Memory.lookup_insert_other (h : b ≠ a) :
    Memory.lookup (Memory.insert a v m) b = Memory.lookup m b := by
  induction m with
  | nil => simp [Memory.insert, Memory.lookup, h]
  | cons c rest ih =>
    obtain ⟨d, w⟩ := c
    unfold Memory.insert
    split
    · simp [Memory.lookup, h]
    · split
      · rename_i hd; subst hd; simp [Memory.lookup, h]
      · simp [Memory.lookup, ih]

theorem Memory.risingFrom_mono (hlo : b ≤ lo) (h : Memory.risingFrom lo m = true) :
    Memory.risingFrom b m = true := by
  cases m with
  | nil => rfl
  | cons c rest =>
    simp only [Memory.risingFrom, Bool.and_eq_true, decide_eq_true_eq] at h ⊢
    exact ⟨by omega, h.2⟩

theorem Memory.lookup_below (h : Memory.risingFrom lo m = true) (ha : a < lo) :
    Memory.lookup m a = none := by
  induction m generalizing lo with
  | nil => rfl
  | cons c rest ih =>
    obtain ⟨b, w⟩ := c
    simp only [Memory.risingFrom, Bool.and_eq_true, decide_eq_true_eq] at h
    rw [Memory.lookup, if_neg (by omega)]
    exact ih h.2 (by omega)

theorem Memory.lookup_erase_same (h : Memory.risingFrom lo m = true) :
    Memory.lookup (Memory.erase a m) a = none := by
  induction m generalizing lo with
  | nil => rfl
  | cons c rest ih =>
    obtain ⟨b, w⟩ := c
    simp only [Memory.risingFrom, Bool.and_eq_true, decide_eq_true_eq] at h
    unfold Memory.erase
    split
    · rename_i hab; exact Memory.lookup_below h.2 (by omega)
    · rename_i hab; rw [Memory.lookup, if_neg hab]; exact ih h.2

theorem Memory.lookup_erase_other (h : b ≠ a) :
    Memory.lookup (Memory.erase a m) b = Memory.lookup m b := by
  induction m with
  | nil => rfl
  | cons c rest ih =>
    obtain ⟨d, w⟩ := c
    unfold Memory.erase
    split
    · rename_i had; subst had; simp [Memory.lookup, h]
    · simp [Memory.lookup, ih]

/-! ### Read after write -/

/-- A read of the byte just written gives it. -/
theorem Memory.read_write_same (h : Memory.risingFrom lo m = true) :
    Memory.read font (Memory.write font m a v) a = v := by
  unfold Memory.write Memory.read
  split
  · rename_i hv; rw [Memory.lookup_erase_same h]; exact hv.symm
  · rw [Memory.lookup_insert_same]; rfl

/-- A write leaves every other byte alone. -/
theorem Memory.read_write_other (h : b ≠ a) :
    Memory.read font (Memory.write font m a v) b = Memory.read font m b := by
  unfold Memory.write Memory.read
  split
  · rw [Memory.lookup_erase_other h]
  · rw [Memory.lookup_insert_other h]

/-! ### The canonical form -/

theorem Memory.risingFrom_insert (h : Memory.risingFrom lo m = true) (ha : lo ≤ a) :
    Memory.risingFrom lo (Memory.insert a v m) = true := by
  induction m generalizing lo with
  | nil => simp [Memory.insert, Memory.risingFrom, ha]
  | cons c rest ih =>
    obtain ⟨b, w⟩ := c
    simp only [Memory.risingFrom, Bool.and_eq_true, decide_eq_true_eq] at h
    unfold Memory.insert
    split
    · simp only [Memory.risingFrom, Bool.and_eq_true, decide_eq_true_eq]
      exact ⟨ha, by omega, h.2⟩
    · split
      · rename_i hab; subst hab
        simp only [Memory.risingFrom, Bool.and_eq_true, decide_eq_true_eq]
        exact h
      · simp only [Memory.risingFrom, Bool.and_eq_true, decide_eq_true_eq]
        exact ⟨h.1, ih h.2 (by omega)⟩

theorem Memory.risingFrom_erase (h : Memory.risingFrom lo m = true) :
    Memory.risingFrom lo (Memory.erase a m) = true := by
  induction m generalizing lo with
  | nil => rfl
  | cons c rest ih =>
    obtain ⟨b, w⟩ := c
    simp only [Memory.risingFrom, Bool.and_eq_true, decide_eq_true_eq] at h
    unfold Memory.erase
    split
    · exact Memory.risingFrom_mono (by omega) h.2
    · simp only [Memory.risingFrom, Bool.and_eq_true, decide_eq_true_eq]
      exact ⟨h.1, ih h.2⟩

theorem Memory.mem_insert {c : Host.Cell} (h : c ∈ Memory.insert a v m) : c = (a, v) ∨ c ∈ m := by
  induction m with
  | nil => simpa [Memory.insert] using h
  | cons d rest ih =>
    obtain ⟨b, w⟩ := d
    unfold Memory.insert at h
    split at h
    · simpa using h
    · split at h
      · rcases List.mem_cons.1 h with h | h
        · exact .inl h
        · exact .inr (List.mem_cons_of_mem _ h)
      · rcases List.mem_cons.1 h with h | h
        · exact .inr (by simp [h])
        · exact (ih h).imp_right (List.mem_cons_of_mem _)

theorem Memory.mem_erase {c : Host.Cell} (h : c ∈ Memory.erase a m) : c ∈ m := by
  induction m with
  | nil => exact h
  | cons d rest ih =>
    obtain ⟨b, w⟩ := d
    unfold Memory.erase at h
    split at h
    · exact List.mem_cons_of_mem _ h
    · rcases List.mem_cons.1 h with h | h
      · simp [h]
      · exact List.mem_cons_of_mem _ (ih h)

theorem Memory.wf_iff : Memory.wf font m = true ↔
    Memory.risingFrom 0 m = true ∧ ∀ c ∈ m, c.1 < memSize ∧ c.2 ≠ Memory.unlisted font c.1 := by
  simp only [Memory.wf, Bool.and_eq_true, List.all_eq_true, decide_eq_true_eq, bne_iff_ne]

/-- A write within memory keeps the canonical form. -/
theorem Memory.wf_write (h : Memory.wf font m = true) (ha : a < memSize) :
    Memory.wf font (Memory.write font m a v) = true := by
  obtain ⟨hr, hc⟩ := Memory.wf_iff.1 h
  unfold Memory.write
  split
  · exact Memory.wf_iff.2 ⟨Memory.risingFrom_erase hr, fun c hm => hc c (Memory.mem_erase hm)⟩
  · rename_i hv
    refine Memory.wf_iff.2 ⟨Memory.risingFrom_insert hr (Nat.zero_le a), fun c hm => ?_⟩
    rcases Memory.mem_insert hm with rfl | hm
    · exact ⟨ha, hv⟩
    · exact hc c hm

/-- A write of several bytes within memory keeps the canonical form. -/
theorem Memory.wf_writeList {bytes : List Byte} (h : Memory.wf font m = true)
    (ha : bytes = [] ∨ a + bytes.length ≤ memSize) :
    Memory.wf font (Memory.writeList font m a bytes) = true := by
  induction bytes generalizing m a with
  | nil => exact h
  | cons v rest ih =>
    have ha : a + (rest.length + 1) ≤ memSize := by simpa using ha
    exact ih (Memory.wf_write h (by omega)) (.inr (by omega))

/-- A write of several bytes leaves every byte outside them alone. -/
theorem Memory.read_writeList_outside {bytes : List Byte} (h : b < a ∨ a + bytes.length ≤ b) :
    Memory.read font (Memory.writeList font m a bytes) b = Memory.read font m b := by
  induction bytes generalizing m a with
  | nil => rfl
  | cons v rest ih =>
    simp only [List.length_cons] at h
    unfold Memory.writeList
    rw [ih (by omega), Memory.read_write_other (by omega)]

theorem Memory.risingFrom_write (h : Memory.risingFrom 0 m = true) :
    Memory.risingFrom 0 (Memory.write font m a v) = true := by
  unfold Memory.write
  split
  · exact Memory.risingFrom_erase h
  · exact Memory.risingFrom_insert h (Nat.zero_le a)

/-- A read of the `k`-th of the bytes just written gives it. -/
theorem Memory.read_writeList_inside {bytes : List Byte} {k : Nat} (hm : Memory.risingFrom 0 m = true)
    (hk : k < bytes.length) :
    Memory.read font (Memory.writeList font m a bytes) (a + k) = bytes[k] := by
  induction bytes generalizing m a k with
  | nil => simp at hk
  | cons v rest ih =>
    unfold Memory.writeList
    cases k with
    | zero =>
      rw [Memory.read_writeList_outside (by omega)]
      exact Memory.read_write_same hm
    | succ k =>
      have := ih (a := a + 1) (Memory.risingFrom_write (v := v) (a := a) (font := font) hm)
        (by simpa using hk)
      simpa [Nat.add_assoc, Nat.add_comm 1 k] using this

/-- The empty list is in canonical form: the memory of a machine right after reset. -/
theorem Memory.wf_nil : Memory.wf font [] = true := rfl

theorem Memory.lookup_head_ne (h : Memory.risingFrom lo ((b, w) :: m) = true) : Memory.lookup m b = none := by
  simp only [Memory.risingFrom, Bool.and_eq_true, decide_eq_true_eq] at h
  exact Memory.lookup_below h.2 (Nat.lt_succ_self b)

theorem Memory.lookup_mem (h : Memory.lookup m a = some v) : (a, v) ∈ m := by
  induction m with
  | nil => simp [Memory.lookup] at h
  | cons c rest ih =>
    obtain ⟨b, w⟩ := c
    rw [Memory.lookup] at h
    split at h
    · rename_i hab; cases h; simp [hab]
    · exact List.mem_cons_of_mem _ (ih h)

/-- Memories in canonical form that list the same byte at every address are equal. -/
theorem Memory.eq_of_lookup (hm : Memory.risingFrom lo m = true) (hn : Memory.risingFrom lo n = true)
    (h : ∀ a, Memory.lookup m a = Memory.lookup n a) : m = n := by
  induction m generalizing n lo with
  | nil =>
    cases n with
    | nil => rfl
    | cons d rest => have := h d.1; simp [Memory.lookup] at this
  | cons c rest ih =>
    obtain ⟨b, w⟩ := c
    cases n with
    | nil => have := h b; simp [Memory.lookup] at this
    | cons d rest' =>
      obtain ⟨e, u⟩ := d
      have hm' := hm; have hn' := hn
      simp only [Memory.risingFrom, Bool.and_eq_true, decide_eq_true_eq] at hm hn
      have hbe : b = e := by
        rcases Nat.lt_trichotomy b e with hlt | heq | hgt
        · have := h b
          rw [Memory.lookup, if_pos rfl, Memory.lookup, if_neg (by omega),
            Memory.lookup_below hn.2 (by omega)] at this
          simp at this
        · exact heq
        · have := h e
          rw [Memory.lookup, if_neg (by omega), Memory.lookup_below hm.2 (by omega), Memory.lookup,
            if_pos rfl] at this
          simp at this
      subst hbe
      have hwu : w = u := by
        have := h b
        simpa [Memory.lookup] using this
      subst hwu
      have : rest = rest' := ih hm.2 hn.2 (fun a => by
        by_cases hab : a = b
        · subst hab; rw [Memory.lookup_head_ne hm', Memory.lookup_head_ne hn']
        · have := h a
          simpa [Memory.lookup, hab] using this)
      rw [this]

/-- Memories in canonical form that read alike at every address are equal data. -/
theorem Memory.eq_of_read (hm : Memory.wf font m = true) (hn : Memory.wf font n = true)
    (h : ∀ a, Memory.read font m a = Memory.read font n a) : m = n := by
  obtain ⟨hmr, hmc⟩ := Memory.wf_iff.1 hm
  obtain ⟨hnr, hnc⟩ := Memory.wf_iff.1 hn
  refine Memory.eq_of_lookup hmr hnr (fun a => ?_)
  have ha := h a
  unfold Memory.read at ha
  cases hx : Memory.lookup m a with
  | none =>
    cases hy : Memory.lookup n a with
    | none => rfl
    | some u =>
      rw [hx, hy] at ha
      exact absurd ha.symm (hnc _ (Memory.lookup_mem hy)).2
  | some w =>
    cases hy : Memory.lookup n a with
    | none =>
      rw [hx, hy] at ha
      exact absurd ha (hmc _ (Memory.lookup_mem hx)).2
    | some u => rw [hx, hy] at ha; simpa using ha

end Sys2Proof.Machine
end

