-- ==== Sys2Proof/Laws/State.lean ====
section
/-! SUPPORT. One lemma per field per update of the state: what the update writes, and that it leaves every other field
alone. They are simp lemmas, so no later proof unfolds a record update. -/

namespace Sys2Proof.Machine

/-! ### `State.writeV` -/

@[simp] theorem State.writeV_v (s : State) (x : Reg) (b : Byte) :
    (s.writeV x b).v = s.v.set x b := rfl
@[simp] theorem State.writeV_i (s : State) (x : Reg) (b : Byte) : (s.writeV x b).i = s.i := rfl
@[simp] theorem State.writeV_pc (s : State) (x : Reg) (b : Byte) : (s.writeV x b).pc = s.pc := rfl
@[simp] theorem State.writeV_stack (s : State) (x : Reg) (b : Byte) : (s.writeV x b).stack = s.stack := rfl
@[simp] theorem State.writeV_sp (s : State) (x : Reg) (b : Byte) : (s.writeV x b).sp = s.sp := rfl
@[simp] theorem State.writeV_dt (s : State) (x : Reg) (b : Byte) : (s.writeV x b).dt = s.dt := rfl
@[simp] theorem State.writeV_st (s : State) (x : Reg) (b : Byte) : (s.writeV x b).st = s.st := rfl
@[simp] theorem State.writeV_mem (s : State) (x : Reg) (b : Byte) : (s.writeV x b).mem = s.mem := rfl
@[simp] theorem State.writeV_screen (s : State) (x : Reg) (b : Byte) : (s.writeV x b).screen = s.screen := rfl
@[simp] theorem State.writeV_redraw (s : State) (x : Reg) (b : Byte) : (s.writeV x b).redraw = s.redraw := rfl
@[simp] theorem State.writeV_keys (s : State) (x : Reg) (b : Byte) : (s.writeV x b).keys = s.keys := rfl
@[simp] theorem State.writeV_lastKey (s : State) (x : Reg) (b : Byte) : (s.writeV x b).lastKey = s.lastKey := rfl
@[simp] theorem State.writeV_paused (s : State) (x : Reg) (b : Byte) : (s.writeV x b).paused = s.paused := rfl
@[simp] theorem State.writeV_ir (s : State) (x : Reg) (b : Byte) : (s.writeV x b).ir = s.ir := rfl
@[simp] theorem State.writeV_waitKey (s : State) (x : Reg) (b : Byte) : (s.writeV x b).waitKey = s.waitKey := rfl
@[simp] theorem State.writeV_status (s : State) (x : Reg) (b : Byte) : (s.writeV x b).status = s.status := rfl
@[simp] theorem State.writeV_faultCause (s : State) (x : Reg) (b : Byte) : (s.writeV x b).faultCause = s.faultCause := rfl
@[simp] theorem State.writeV_faultInfo (s : State) (x : Reg) (b : Byte) : (s.writeV x b).faultInfo = s.faultInfo := rfl
@[simp] theorem State.writeV_beep (s : State) (x : Reg) (b : Byte) : (s.writeV x b).beep = s.beep := rfl
@[simp] theorem State.writeV_cfg (s : State) (x : Reg) (b : Byte) : (s.writeV x b).cfg = s.cfg := rfl
@[simp] theorem State.writeV_draws (s : State) (x : Reg) (b : Byte) : (s.writeV x b).draws = s.draws := rfl
@[simp] theorem State.writeV_schedule (s : State) (x : Reg) (b : Byte) : (s.writeV x b).schedule = s.schedule := rfl
@[simp] theorem State.writeV_boot (s : State) (x : Reg) (b : Byte) : (s.writeV x b).boot = s.boot := rfl
@[simp] theorem State.writeV_beepLog (s : State) (x : Reg) (b : Byte) : (s.writeV x b).beepLog = s.beepLog := rfl

/-! ### `State.writeVs` -/

@[simp] theorem State.writeVs_v (s : State) (bytes : List Byte) :
    (s.writeVs bytes).v = Vector.ofFn (fun k : Reg => bytes.getD k (s.readV k)) := rfl
@[simp] theorem State.writeVs_i (s : State) (bytes : List Byte) : (s.writeVs bytes).i = s.i := rfl
@[simp] theorem State.writeVs_pc (s : State) (bytes : List Byte) : (s.writeVs bytes).pc = s.pc := rfl
@[simp] theorem State.writeVs_stack (s : State) (bytes : List Byte) : (s.writeVs bytes).stack = s.stack := rfl
@[simp] theorem State.writeVs_sp (s : State) (bytes : List Byte) : (s.writeVs bytes).sp = s.sp := rfl
@[simp] theorem State.writeVs_dt (s : State) (bytes : List Byte) : (s.writeVs bytes).dt = s.dt := rfl
@[simp] theorem State.writeVs_st (s : State) (bytes : List Byte) : (s.writeVs bytes).st = s.st := rfl
@[simp] theorem State.writeVs_mem (s : State) (bytes : List Byte) : (s.writeVs bytes).mem = s.mem := rfl
@[simp] theorem State.writeVs_screen (s : State) (bytes : List Byte) : (s.writeVs bytes).screen = s.screen := rfl
@[simp] theorem State.writeVs_redraw (s : State) (bytes : List Byte) : (s.writeVs bytes).redraw = s.redraw := rfl
@[simp] theorem State.writeVs_keys (s : State) (bytes : List Byte) : (s.writeVs bytes).keys = s.keys := rfl
@[simp] theorem State.writeVs_lastKey (s : State) (bytes : List Byte) : (s.writeVs bytes).lastKey = s.lastKey := rfl
@[simp] theorem State.writeVs_paused (s : State) (bytes : List Byte) : (s.writeVs bytes).paused = s.paused := rfl
@[simp] theorem State.writeVs_ir (s : State) (bytes : List Byte) : (s.writeVs bytes).ir = s.ir := rfl
@[simp] theorem State.writeVs_waitKey (s : State) (bytes : List Byte) : (s.writeVs bytes).waitKey = s.waitKey := rfl
@[simp] theorem State.writeVs_status (s : State) (bytes : List Byte) : (s.writeVs bytes).status = s.status := rfl
@[simp] theorem State.writeVs_faultCause (s : State) (bytes : List Byte) : (s.writeVs bytes).faultCause = s.faultCause := rfl
@[simp] theorem State.writeVs_faultInfo (s : State) (bytes : List Byte) : (s.writeVs bytes).faultInfo = s.faultInfo := rfl
@[simp] theorem State.writeVs_beep (s : State) (bytes : List Byte) : (s.writeVs bytes).beep = s.beep := rfl
@[simp] theorem State.writeVs_cfg (s : State) (bytes : List Byte) : (s.writeVs bytes).cfg = s.cfg := rfl
@[simp] theorem State.writeVs_draws (s : State) (bytes : List Byte) : (s.writeVs bytes).draws = s.draws := rfl
@[simp] theorem State.writeVs_schedule (s : State) (bytes : List Byte) : (s.writeVs bytes).schedule = s.schedule := rfl
@[simp] theorem State.writeVs_boot (s : State) (bytes : List Byte) : (s.writeVs bytes).boot = s.boot := rfl
@[simp] theorem State.writeVs_beepLog (s : State) (bytes : List Byte) : (s.writeVs bytes).beepLog = s.beepLog := rfl

/-! ### `State.writeI` -/

@[simp] theorem State.writeI_v (s : State) (w : Word) : (s.writeI w).v = s.v := rfl
@[simp] theorem State.writeI_i (s : State) (w : Word) :
    (s.writeI w).i = w := rfl
@[simp] theorem State.writeI_pc (s : State) (w : Word) : (s.writeI w).pc = s.pc := rfl
@[simp] theorem State.writeI_stack (s : State) (w : Word) : (s.writeI w).stack = s.stack := rfl
@[simp] theorem State.writeI_sp (s : State) (w : Word) : (s.writeI w).sp = s.sp := rfl
@[simp] theorem State.writeI_dt (s : State) (w : Word) : (s.writeI w).dt = s.dt := rfl
@[simp] theorem State.writeI_st (s : State) (w : Word) : (s.writeI w).st = s.st := rfl
@[simp] theorem State.writeI_mem (s : State) (w : Word) : (s.writeI w).mem = s.mem := rfl
@[simp] theorem State.writeI_screen (s : State) (w : Word) : (s.writeI w).screen = s.screen := rfl
@[simp] theorem State.writeI_redraw (s : State) (w : Word) : (s.writeI w).redraw = s.redraw := rfl
@[simp] theorem State.writeI_keys (s : State) (w : Word) : (s.writeI w).keys = s.keys := rfl
@[simp] theorem State.writeI_lastKey (s : State) (w : Word) : (s.writeI w).lastKey = s.lastKey := rfl
@[simp] theorem State.writeI_paused (s : State) (w : Word) : (s.writeI w).paused = s.paused := rfl
@[simp] theorem State.writeI_ir (s : State) (w : Word) : (s.writeI w).ir = s.ir := rfl
@[simp] theorem State.writeI_waitKey (s : State) (w : Word) : (s.writeI w).waitKey = s.waitKey := rfl
@[simp] theorem State.writeI_status (s : State) (w : Word) : (s.writeI w).status = s.status := rfl
@[simp] theorem State.writeI_faultCause (s : State) (w : Word) : (s.writeI w).faultCause = s.faultCause := rfl
@[simp] theorem State.writeI_faultInfo (s : State) (w : Word) : (s.writeI w).faultInfo = s.faultInfo := rfl
@[simp] theorem State.writeI_beep (s : State) (w : Word) : (s.writeI w).beep = s.beep := rfl
@[simp] theorem State.writeI_cfg (s : State) (w : Word) : (s.writeI w).cfg = s.cfg := rfl
@[simp] theorem State.writeI_draws (s : State) (w : Word) : (s.writeI w).draws = s.draws := rfl
@[simp] theorem State.writeI_schedule (s : State) (w : Word) : (s.writeI w).schedule = s.schedule := rfl
@[simp] theorem State.writeI_boot (s : State) (w : Word) : (s.writeI w).boot = s.boot := rfl
@[simp] theorem State.writeI_beepLog (s : State) (w : Word) : (s.writeI w).beepLog = s.beepLog := rfl

/-! ### `State.writePC` -/

@[simp] theorem State.writePC_v (s : State) (w : Word) : (s.writePC w).v = s.v := rfl
@[simp] theorem State.writePC_i (s : State) (w : Word) : (s.writePC w).i = s.i := rfl
@[simp] theorem State.writePC_pc (s : State) (w : Word) :
    (s.writePC w).pc = w := rfl
@[simp] theorem State.writePC_stack (s : State) (w : Word) : (s.writePC w).stack = s.stack := rfl
@[simp] theorem State.writePC_sp (s : State) (w : Word) : (s.writePC w).sp = s.sp := rfl
@[simp] theorem State.writePC_dt (s : State) (w : Word) : (s.writePC w).dt = s.dt := rfl
@[simp] theorem State.writePC_st (s : State) (w : Word) : (s.writePC w).st = s.st := rfl
@[simp] theorem State.writePC_mem (s : State) (w : Word) : (s.writePC w).mem = s.mem := rfl
@[simp] theorem State.writePC_screen (s : State) (w : Word) : (s.writePC w).screen = s.screen := rfl
@[simp] theorem State.writePC_redraw (s : State) (w : Word) : (s.writePC w).redraw = s.redraw := rfl
@[simp] theorem State.writePC_keys (s : State) (w : Word) : (s.writePC w).keys = s.keys := rfl
@[simp] theorem State.writePC_lastKey (s : State) (w : Word) : (s.writePC w).lastKey = s.lastKey := rfl
@[simp] theorem State.writePC_paused (s : State) (w : Word) : (s.writePC w).paused = s.paused := rfl
@[simp] theorem State.writePC_ir (s : State) (w : Word) : (s.writePC w).ir = s.ir := rfl
@[simp] theorem State.writePC_waitKey (s : State) (w : Word) : (s.writePC w).waitKey = s.waitKey := rfl
@[simp] theorem State.writePC_status (s : State) (w : Word) : (s.writePC w).status = s.status := rfl
@[simp] theorem State.writePC_faultCause (s : State) (w : Word) : (s.writePC w).faultCause = s.faultCause := rfl
@[simp] theorem State.writePC_faultInfo (s : State) (w : Word) : (s.writePC w).faultInfo = s.faultInfo := rfl
@[simp] theorem State.writePC_beep (s : State) (w : Word) : (s.writePC w).beep = s.beep := rfl
@[simp] theorem State.writePC_cfg (s : State) (w : Word) : (s.writePC w).cfg = s.cfg := rfl
@[simp] theorem State.writePC_draws (s : State) (w : Word) : (s.writePC w).draws = s.draws := rfl
@[simp] theorem State.writePC_schedule (s : State) (w : Word) : (s.writePC w).schedule = s.schedule := rfl
@[simp] theorem State.writePC_boot (s : State) (w : Word) : (s.writePC w).boot = s.boot := rfl
@[simp] theorem State.writePC_beepLog (s : State) (w : Word) : (s.writePC w).beepLog = s.beepLog := rfl

/-! ### `skip` -/

@[simp] theorem skip_v (s : State) : (skip s).v = s.v := rfl
@[simp] theorem skip_i (s : State) : (skip s).i = s.i := rfl
@[simp] theorem skip_pc (s : State) :
    (skip s).pc = s.pc + 2 := rfl
@[simp] theorem skip_stack (s : State) : (skip s).stack = s.stack := rfl
@[simp] theorem skip_sp (s : State) : (skip s).sp = s.sp := rfl
@[simp] theorem skip_dt (s : State) : (skip s).dt = s.dt := rfl
@[simp] theorem skip_st (s : State) : (skip s).st = s.st := rfl
@[simp] theorem skip_mem (s : State) : (skip s).mem = s.mem := rfl
@[simp] theorem skip_screen (s : State) : (skip s).screen = s.screen := rfl
@[simp] theorem skip_redraw (s : State) : (skip s).redraw = s.redraw := rfl
@[simp] theorem skip_keys (s : State) : (skip s).keys = s.keys := rfl
@[simp] theorem skip_lastKey (s : State) : (skip s).lastKey = s.lastKey := rfl
@[simp] theorem skip_paused (s : State) : (skip s).paused = s.paused := rfl
@[simp] theorem skip_ir (s : State) : (skip s).ir = s.ir := rfl
@[simp] theorem skip_waitKey (s : State) : (skip s).waitKey = s.waitKey := rfl
@[simp] theorem skip_status (s : State) : (skip s).status = s.status := rfl
@[simp] theorem skip_faultCause (s : State) : (skip s).faultCause = s.faultCause := rfl
@[simp] theorem skip_faultInfo (s : State) : (skip s).faultInfo = s.faultInfo := rfl
@[simp] theorem skip_beep (s : State) : (skip s).beep = s.beep := rfl
@[simp] theorem skip_cfg (s : State) : (skip s).cfg = s.cfg := rfl
@[simp] theorem skip_draws (s : State) : (skip s).draws = s.draws := rfl
@[simp] theorem skip_schedule (s : State) : (skip s).schedule = s.schedule := rfl
@[simp] theorem skip_boot (s : State) : (skip s).boot = s.boot := rfl
@[simp] theorem skip_beepLog (s : State) : (skip s).beepLog = s.beepLog := rfl

/-! ### `skipIf` -/

@[simp] theorem skipIf_v (c : Bool) (s : State) : (skipIf c s).v = s.v := by cases c <;> rfl
@[simp] theorem skipIf_i (c : Bool) (s : State) : (skipIf c s).i = s.i := by cases c <;> rfl
@[simp] theorem skipIf_pc (c : Bool) (s : State) :
    (skipIf c s).pc = if c then s.pc + 2 else s.pc := by cases c <;> rfl
@[simp] theorem skipIf_stack (c : Bool) (s : State) : (skipIf c s).stack = s.stack := by cases c <;> rfl
@[simp] theorem skipIf_sp (c : Bool) (s : State) : (skipIf c s).sp = s.sp := by cases c <;> rfl
@[simp] theorem skipIf_dt (c : Bool) (s : State) : (skipIf c s).dt = s.dt := by cases c <;> rfl
@[simp] theorem skipIf_st (c : Bool) (s : State) : (skipIf c s).st = s.st := by cases c <;> rfl
@[simp] theorem skipIf_mem (c : Bool) (s : State) : (skipIf c s).mem = s.mem := by cases c <;> rfl
@[simp] theorem skipIf_screen (c : Bool) (s : State) : (skipIf c s).screen = s.screen := by cases c <;> rfl
@[simp] theorem skipIf_redraw (c : Bool) (s : State) : (skipIf c s).redraw = s.redraw := by cases c <;> rfl
@[simp] theorem skipIf_keys (c : Bool) (s : State) : (skipIf c s).keys = s.keys := by cases c <;> rfl
@[simp] theorem skipIf_lastKey (c : Bool) (s : State) : (skipIf c s).lastKey = s.lastKey := by cases c <;> rfl
@[simp] theorem skipIf_paused (c : Bool) (s : State) : (skipIf c s).paused = s.paused := by cases c <;> rfl
@[simp] theorem skipIf_ir (c : Bool) (s : State) : (skipIf c s).ir = s.ir := by cases c <;> rfl
@[simp] theorem skipIf_waitKey (c : Bool) (s : State) : (skipIf c s).waitKey = s.waitKey := by cases c <;> rfl
@[simp] theorem skipIf_status (c : Bool) (s : State) : (skipIf c s).status = s.status := by cases c <;> rfl
@[simp] theorem skipIf_faultCause (c : Bool) (s : State) : (skipIf c s).faultCause = s.faultCause := by cases c <;> rfl
@[simp] theorem skipIf_faultInfo (c : Bool) (s : State) : (skipIf c s).faultInfo = s.faultInfo := by cases c <;> rfl
@[simp] theorem skipIf_beep (c : Bool) (s : State) : (skipIf c s).beep = s.beep := by cases c <;> rfl
@[simp] theorem skipIf_cfg (c : Bool) (s : State) : (skipIf c s).cfg = s.cfg := by cases c <;> rfl
@[simp] theorem skipIf_draws (c : Bool) (s : State) : (skipIf c s).draws = s.draws := by cases c <;> rfl
@[simp] theorem skipIf_schedule (c : Bool) (s : State) : (skipIf c s).schedule = s.schedule := by cases c <;> rfl
@[simp] theorem skipIf_boot (c : Bool) (s : State) : (skipIf c s).boot = s.boot := by cases c <;> rfl
@[simp] theorem skipIf_beepLog (c : Bool) (s : State) : (skipIf c s).beepLog = s.beepLog := by cases c <;> rfl

/-! ### `pushStack` -/

@[simp] theorem pushStack_v (s : State) (w : Word) : (pushStack s w).v = s.v := rfl
@[simp] theorem pushStack_i (s : State) (w : Word) : (pushStack s w).i = s.i := rfl
@[simp] theorem pushStack_pc (s : State) (w : Word) : (pushStack s w).pc = s.pc := rfl
@[simp] theorem pushStack_sp (s : State) (w : Word) :
    (pushStack s w).sp = s.sp + 1 := rfl
@[simp] theorem pushStack_dt (s : State) (w : Word) : (pushStack s w).dt = s.dt := rfl
@[simp] theorem pushStack_st (s : State) (w : Word) : (pushStack s w).st = s.st := rfl
@[simp] theorem pushStack_mem (s : State) (w : Word) : (pushStack s w).mem = s.mem := rfl
@[simp] theorem pushStack_screen (s : State) (w : Word) : (pushStack s w).screen = s.screen := rfl
@[simp] theorem pushStack_redraw (s : State) (w : Word) : (pushStack s w).redraw = s.redraw := rfl
@[simp] theorem pushStack_keys (s : State) (w : Word) : (pushStack s w).keys = s.keys := rfl
@[simp] theorem pushStack_lastKey (s : State) (w : Word) : (pushStack s w).lastKey = s.lastKey := rfl
@[simp] theorem pushStack_paused (s : State) (w : Word) : (pushStack s w).paused = s.paused := rfl
@[simp] theorem pushStack_ir (s : State) (w : Word) : (pushStack s w).ir = s.ir := rfl
@[simp] theorem pushStack_waitKey (s : State) (w : Word) : (pushStack s w).waitKey = s.waitKey := rfl
@[simp] theorem pushStack_status (s : State) (w : Word) : (pushStack s w).status = s.status := rfl
@[simp] theorem pushStack_faultCause (s : State) (w : Word) : (pushStack s w).faultCause = s.faultCause := rfl
@[simp] theorem pushStack_faultInfo (s : State) (w : Word) : (pushStack s w).faultInfo = s.faultInfo := rfl
@[simp] theorem pushStack_beep (s : State) (w : Word) : (pushStack s w).beep = s.beep := rfl
@[simp] theorem pushStack_cfg (s : State) (w : Word) : (pushStack s w).cfg = s.cfg := rfl
@[simp] theorem pushStack_draws (s : State) (w : Word) : (pushStack s w).draws = s.draws := rfl
@[simp] theorem pushStack_schedule (s : State) (w : Word) : (pushStack s w).schedule = s.schedule := rfl
@[simp] theorem pushStack_boot (s : State) (w : Word) : (pushStack s w).boot = s.boot := rfl
@[simp] theorem pushStack_beepLog (s : State) (w : Word) : (pushStack s w).beepLog = s.beepLog := rfl

/-! ### `popStack` -/

@[simp] theorem popStack_v (s : State) : (popStack s).v = s.v := rfl
@[simp] theorem popStack_i (s : State) : (popStack s).i = s.i := rfl
@[simp] theorem popStack_pc (s : State) : (popStack s).pc = s.pc := rfl
@[simp] theorem popStack_stack (s : State) : (popStack s).stack = s.stack := rfl
@[simp] theorem popStack_sp (s : State) :
    (popStack s).sp = s.sp - 1 := rfl
@[simp] theorem popStack_dt (s : State) : (popStack s).dt = s.dt := rfl
@[simp] theorem popStack_st (s : State) : (popStack s).st = s.st := rfl
@[simp] theorem popStack_mem (s : State) : (popStack s).mem = s.mem := rfl
@[simp] theorem popStack_screen (s : State) : (popStack s).screen = s.screen := rfl
@[simp] theorem popStack_redraw (s : State) : (popStack s).redraw = s.redraw := rfl
@[simp] theorem popStack_keys (s : State) : (popStack s).keys = s.keys := rfl
@[simp] theorem popStack_lastKey (s : State) : (popStack s).lastKey = s.lastKey := rfl
@[simp] theorem popStack_paused (s : State) : (popStack s).paused = s.paused := rfl
@[simp] theorem popStack_ir (s : State) : (popStack s).ir = s.ir := rfl
@[simp] theorem popStack_waitKey (s : State) : (popStack s).waitKey = s.waitKey := rfl
@[simp] theorem popStack_status (s : State) : (popStack s).status = s.status := rfl
@[simp] theorem popStack_faultCause (s : State) : (popStack s).faultCause = s.faultCause := rfl
@[simp] theorem popStack_faultInfo (s : State) : (popStack s).faultInfo = s.faultInfo := rfl
@[simp] theorem popStack_beep (s : State) : (popStack s).beep = s.beep := rfl
@[simp] theorem popStack_cfg (s : State) : (popStack s).cfg = s.cfg := rfl
@[simp] theorem popStack_draws (s : State) : (popStack s).draws = s.draws := rfl
@[simp] theorem popStack_schedule (s : State) : (popStack s).schedule = s.schedule := rfl
@[simp] theorem popStack_boot (s : State) : (popStack s).boot = s.boot := rfl
@[simp] theorem popStack_beepLog (s : State) : (popStack s).beepLog = s.beepLog := rfl

/-! ### `emitBeep` -/

@[simp] theorem emitBeep_v (on : Bool) (s : State) : (emitBeep on s).v = s.v := rfl
@[simp] theorem emitBeep_i (on : Bool) (s : State) : (emitBeep on s).i = s.i := rfl
@[simp] theorem emitBeep_pc (on : Bool) (s : State) : (emitBeep on s).pc = s.pc := rfl
@[simp] theorem emitBeep_stack (on : Bool) (s : State) : (emitBeep on s).stack = s.stack := rfl
@[simp] theorem emitBeep_sp (on : Bool) (s : State) : (emitBeep on s).sp = s.sp := rfl
@[simp] theorem emitBeep_dt (on : Bool) (s : State) : (emitBeep on s).dt = s.dt := rfl
@[simp] theorem emitBeep_st (on : Bool) (s : State) : (emitBeep on s).st = s.st := rfl
@[simp] theorem emitBeep_mem (on : Bool) (s : State) : (emitBeep on s).mem = s.mem := rfl
@[simp] theorem emitBeep_screen (on : Bool) (s : State) : (emitBeep on s).screen = s.screen := rfl
@[simp] theorem emitBeep_redraw (on : Bool) (s : State) : (emitBeep on s).redraw = s.redraw := rfl
@[simp] theorem emitBeep_keys (on : Bool) (s : State) : (emitBeep on s).keys = s.keys := rfl
@[simp] theorem emitBeep_lastKey (on : Bool) (s : State) : (emitBeep on s).lastKey = s.lastKey := rfl
@[simp] theorem emitBeep_paused (on : Bool) (s : State) : (emitBeep on s).paused = s.paused := rfl
@[simp] theorem emitBeep_ir (on : Bool) (s : State) : (emitBeep on s).ir = s.ir := rfl
@[simp] theorem emitBeep_waitKey (on : Bool) (s : State) : (emitBeep on s).waitKey = s.waitKey := rfl
@[simp] theorem emitBeep_status (on : Bool) (s : State) : (emitBeep on s).status = s.status := rfl
@[simp] theorem emitBeep_faultCause (on : Bool) (s : State) : (emitBeep on s).faultCause = s.faultCause := rfl
@[simp] theorem emitBeep_faultInfo (on : Bool) (s : State) : (emitBeep on s).faultInfo = s.faultInfo := rfl
@[simp] theorem emitBeep_beep (on : Bool) (s : State) :
    (emitBeep on s).beep = on := rfl
@[simp] theorem emitBeep_cfg (on : Bool) (s : State) : (emitBeep on s).cfg = s.cfg := rfl
@[simp] theorem emitBeep_draws (on : Bool) (s : State) : (emitBeep on s).draws = s.draws := rfl
@[simp] theorem emitBeep_schedule (on : Bool) (s : State) : (emitBeep on s).schedule = s.schedule := rfl
@[simp] theorem emitBeep_boot (on : Bool) (s : State) : (emitBeep on s).boot = s.boot := rfl
@[simp] theorem emitBeep_beepLog (on : Bool) (s : State) :
    (emitBeep on s).beepLog = on :: s.beepLog := rfl

/-! ### `raise` -/

@[simp] theorem raise_v (c : FaultCause) (w : Word) (s : State) : (raise c w s).v = s.v := rfl
@[simp] theorem raise_i (c : FaultCause) (w : Word) (s : State) : (raise c w s).i = s.i := rfl
@[simp] theorem raise_pc (c : FaultCause) (w : Word) (s : State) : (raise c w s).pc = s.pc := rfl
@[simp] theorem raise_stack (c : FaultCause) (w : Word) (s : State) : (raise c w s).stack = s.stack := rfl
@[simp] theorem raise_sp (c : FaultCause) (w : Word) (s : State) : (raise c w s).sp = s.sp := rfl
@[simp] theorem raise_dt (c : FaultCause) (w : Word) (s : State) : (raise c w s).dt = s.dt := rfl
@[simp] theorem raise_st (c : FaultCause) (w : Word) (s : State) : (raise c w s).st = s.st := rfl
@[simp] theorem raise_mem (c : FaultCause) (w : Word) (s : State) : (raise c w s).mem = s.mem := rfl
@[simp] theorem raise_screen (c : FaultCause) (w : Word) (s : State) : (raise c w s).screen = s.screen := rfl
@[simp] theorem raise_redraw (c : FaultCause) (w : Word) (s : State) : (raise c w s).redraw = s.redraw := rfl
@[simp] theorem raise_keys (c : FaultCause) (w : Word) (s : State) : (raise c w s).keys = s.keys := rfl
@[simp] theorem raise_lastKey (c : FaultCause) (w : Word) (s : State) : (raise c w s).lastKey = s.lastKey := rfl
@[simp] theorem raise_paused (c : FaultCause) (w : Word) (s : State) : (raise c w s).paused = s.paused := rfl
@[simp] theorem raise_ir (c : FaultCause) (w : Word) (s : State) : (raise c w s).ir = s.ir := rfl
@[simp] theorem raise_waitKey (c : FaultCause) (w : Word) (s : State) : (raise c w s).waitKey = s.waitKey := rfl
@[simp] theorem raise_status (c : FaultCause) (w : Word) (s : State) :
    (raise c w s).status = .faulted := rfl
@[simp] theorem raise_faultCause (c : FaultCause) (w : Word) (s : State) :
    (raise c w s).faultCause = c := rfl
@[simp] theorem raise_faultInfo (c : FaultCause) (w : Word) (s : State) :
    (raise c w s).faultInfo = w := rfl
@[simp] theorem raise_beep (c : FaultCause) (w : Word) (s : State) : (raise c w s).beep = s.beep := rfl
@[simp] theorem raise_cfg (c : FaultCause) (w : Word) (s : State) : (raise c w s).cfg = s.cfg := rfl
@[simp] theorem raise_draws (c : FaultCause) (w : Word) (s : State) : (raise c w s).draws = s.draws := rfl
@[simp] theorem raise_schedule (c : FaultCause) (w : Word) (s : State) : (raise c w s).schedule = s.schedule := rfl
@[simp] theorem raise_boot (c : FaultCause) (w : Word) (s : State) : (raise c w s).boot = s.boot := rfl
@[simp] theorem raise_beepLog (c : FaultCause) (w : Word) (s : State) : (raise c w s).beepLog = s.beepLog := rfl

/-! ### `State.afterDraw` -/

@[simp] theorem State.afterDraw_v (s : State) : (s.afterDraw).v = s.v := rfl
@[simp] theorem State.afterDraw_i (s : State) : (s.afterDraw).i = s.i := rfl
@[simp] theorem State.afterDraw_pc (s : State) : (s.afterDraw).pc = s.pc := rfl
@[simp] theorem State.afterDraw_stack (s : State) : (s.afterDraw).stack = s.stack := rfl
@[simp] theorem State.afterDraw_sp (s : State) : (s.afterDraw).sp = s.sp := rfl
@[simp] theorem State.afterDraw_dt (s : State) : (s.afterDraw).dt = s.dt := rfl
@[simp] theorem State.afterDraw_st (s : State) : (s.afterDraw).st = s.st := rfl
@[simp] theorem State.afterDraw_mem (s : State) : (s.afterDraw).mem = s.mem := rfl
@[simp] theorem State.afterDraw_screen (s : State) : (s.afterDraw).screen = s.screen := rfl
@[simp] theorem State.afterDraw_redraw (s : State) : (s.afterDraw).redraw = s.redraw := rfl
@[simp] theorem State.afterDraw_keys (s : State) : (s.afterDraw).keys = s.keys := rfl
@[simp] theorem State.afterDraw_lastKey (s : State) : (s.afterDraw).lastKey = s.lastKey := rfl
@[simp] theorem State.afterDraw_paused (s : State) : (s.afterDraw).paused = s.paused := rfl
@[simp] theorem State.afterDraw_ir (s : State) : (s.afterDraw).ir = s.ir := rfl
@[simp] theorem State.afterDraw_waitKey (s : State) : (s.afterDraw).waitKey = s.waitKey := rfl
@[simp] theorem State.afterDraw_status (s : State) : (s.afterDraw).status = s.status := rfl
@[simp] theorem State.afterDraw_faultCause (s : State) : (s.afterDraw).faultCause = s.faultCause := rfl
@[simp] theorem State.afterDraw_faultInfo (s : State) : (s.afterDraw).faultInfo = s.faultInfo := rfl
@[simp] theorem State.afterDraw_beep (s : State) : (s.afterDraw).beep = s.beep := rfl
@[simp] theorem State.afterDraw_cfg (s : State) : (s.afterDraw).cfg = s.cfg := rfl
@[simp] theorem State.afterDraw_draws (s : State) :
    (s.afterDraw).draws = s.draws + 1 := rfl
@[simp] theorem State.afterDraw_schedule (s : State) : (s.afterDraw).schedule = s.schedule := rfl
@[simp] theorem State.afterDraw_boot (s : State) : (s.afterDraw).boot = s.boot := rfl
@[simp] theorem State.afterDraw_beepLog (s : State) : (s.afterDraw).beepLog = s.beepLog := rfl

/-! ### `writeResultFlag` -/

@[simp] theorem writeResultFlag_v (x : Reg) (r : Byte) (f : Bool) (s : State) :
    (writeResultFlag x r f s).v = (s.v.set x r).set regVF (flagByte f) := rfl
@[simp] theorem writeResultFlag_i (x : Reg) (r : Byte) (f : Bool) (s : State) : (writeResultFlag x r f s).i = s.i := rfl
@[simp] theorem writeResultFlag_pc (x : Reg) (r : Byte) (f : Bool) (s : State) : (writeResultFlag x r f s).pc = s.pc := rfl
@[simp] theorem writeResultFlag_stack (x : Reg) (r : Byte) (f : Bool) (s : State) : (writeResultFlag x r f s).stack = s.stack := rfl
@[simp] theorem writeResultFlag_sp (x : Reg) (r : Byte) (f : Bool) (s : State) : (writeResultFlag x r f s).sp = s.sp := rfl
@[simp] theorem writeResultFlag_dt (x : Reg) (r : Byte) (f : Bool) (s : State) : (writeResultFlag x r f s).dt = s.dt := rfl
@[simp] theorem writeResultFlag_st (x : Reg) (r : Byte) (f : Bool) (s : State) : (writeResultFlag x r f s).st = s.st := rfl
@[simp] theorem writeResultFlag_mem (x : Reg) (r : Byte) (f : Bool) (s : State) : (writeResultFlag x r f s).mem = s.mem := rfl
@[simp] theorem writeResultFlag_screen (x : Reg) (r : Byte) (f : Bool) (s : State) : (writeResultFlag x r f s).screen = s.screen := rfl
@[simp] theorem writeResultFlag_redraw (x : Reg) (r : Byte) (f : Bool) (s : State) : (writeResultFlag x r f s).redraw = s.redraw := rfl
@[simp] theorem writeResultFlag_keys (x : Reg) (r : Byte) (f : Bool) (s : State) : (writeResultFlag x r f s).keys = s.keys := rfl
@[simp] theorem writeResultFlag_lastKey (x : Reg) (r : Byte) (f : Bool) (s : State) : (writeResultFlag x r f s).lastKey = s.lastKey := rfl
@[simp] theorem writeResultFlag_paused (x : Reg) (r : Byte) (f : Bool) (s : State) : (writeResultFlag x r f s).paused = s.paused := rfl
@[simp] theorem writeResultFlag_ir (x : Reg) (r : Byte) (f : Bool) (s : State) : (writeResultFlag x r f s).ir = s.ir := rfl
@[simp] theorem writeResultFlag_waitKey (x : Reg) (r : Byte) (f : Bool) (s : State) : (writeResultFlag x r f s).waitKey = s.waitKey := rfl
@[simp] theorem writeResultFlag_status (x : Reg) (r : Byte) (f : Bool) (s : State) : (writeResultFlag x r f s).status = s.status := rfl
@[simp] theorem writeResultFlag_faultCause (x : Reg) (r : Byte) (f : Bool) (s : State) : (writeResultFlag x r f s).faultCause = s.faultCause := rfl
@[simp] theorem writeResultFlag_faultInfo (x : Reg) (r : Byte) (f : Bool) (s : State) : (writeResultFlag x r f s).faultInfo = s.faultInfo := rfl
@[simp] theorem writeResultFlag_beep (x : Reg) (r : Byte) (f : Bool) (s : State) : (writeResultFlag x r f s).beep = s.beep := rfl
@[simp] theorem writeResultFlag_cfg (x : Reg) (r : Byte) (f : Bool) (s : State) : (writeResultFlag x r f s).cfg = s.cfg := rfl
@[simp] theorem writeResultFlag_draws (x : Reg) (r : Byte) (f : Bool) (s : State) : (writeResultFlag x r f s).draws = s.draws := rfl
@[simp] theorem writeResultFlag_schedule (x : Reg) (r : Byte) (f : Bool) (s : State) : (writeResultFlag x r f s).schedule = s.schedule := rfl
@[simp] theorem writeResultFlag_boot (x : Reg) (r : Byte) (f : Bool) (s : State) : (writeResultFlag x r f s).boot = s.boot := rfl
@[simp] theorem writeResultFlag_beepLog (x : Reg) (r : Byte) (f : Bool) (s : State) : (writeResultFlag x r f s).beepLog = s.beepLog := rfl

/-! ### `bumpI` -/

@[simp] theorem bumpI_v (x : Reg) (s : State) : (bumpI x s).v = s.v := by unfold bumpI; split <;> rfl
@[simp] theorem bumpI_i (x : Reg) (s : State) :
    (bumpI x s).i = if s.cfg.legacyIIncrement then s.i + BitVec.ofNat 16 (blockLen x) else s.i := by unfold bumpI; split <;> rfl
@[simp] theorem bumpI_pc (x : Reg) (s : State) : (bumpI x s).pc = s.pc := by unfold bumpI; split <;> rfl
@[simp] theorem bumpI_stack (x : Reg) (s : State) : (bumpI x s).stack = s.stack := by unfold bumpI; split <;> rfl
@[simp] theorem bumpI_sp (x : Reg) (s : State) : (bumpI x s).sp = s.sp := by unfold bumpI; split <;> rfl
@[simp] theorem bumpI_dt (x : Reg) (s : State) : (bumpI x s).dt = s.dt := by unfold bumpI; split <;> rfl
@[simp] theorem bumpI_st (x : Reg) (s : State) : (bumpI x s).st = s.st := by unfold bumpI; split <;> rfl
@[simp] theorem bumpI_mem (x : Reg) (s : State) : (bumpI x s).mem = s.mem := by unfold bumpI; split <;> rfl
@[simp] theorem bumpI_screen (x : Reg) (s : State) : (bumpI x s).screen = s.screen := by unfold bumpI; split <;> rfl
@[simp] theorem bumpI_redraw (x : Reg) (s : State) : (bumpI x s).redraw = s.redraw := by unfold bumpI; split <;> rfl
@[simp] theorem bumpI_keys (x : Reg) (s : State) : (bumpI x s).keys = s.keys := by unfold bumpI; split <;> rfl
@[simp] theorem bumpI_lastKey (x : Reg) (s : State) : (bumpI x s).lastKey = s.lastKey := by unfold bumpI; split <;> rfl
@[simp] theorem bumpI_paused (x : Reg) (s : State) : (bumpI x s).paused = s.paused := by unfold bumpI; split <;> rfl
@[simp] theorem bumpI_ir (x : Reg) (s : State) : (bumpI x s).ir = s.ir := by unfold bumpI; split <;> rfl
@[simp] theorem bumpI_waitKey (x : Reg) (s : State) : (bumpI x s).waitKey = s.waitKey := by unfold bumpI; split <;> rfl
@[simp] theorem bumpI_status (x : Reg) (s : State) : (bumpI x s).status = s.status := by unfold bumpI; split <;> rfl
@[simp] theorem bumpI_faultCause (x : Reg) (s : State) : (bumpI x s).faultCause = s.faultCause := by unfold bumpI; split <;> rfl
@[simp] theorem bumpI_faultInfo (x : Reg) (s : State) : (bumpI x s).faultInfo = s.faultInfo := by unfold bumpI; split <;> rfl
@[simp] theorem bumpI_beep (x : Reg) (s : State) : (bumpI x s).beep = s.beep := by unfold bumpI; split <;> rfl
@[simp] theorem bumpI_cfg (x : Reg) (s : State) : (bumpI x s).cfg = s.cfg := by unfold bumpI; split <;> rfl
@[simp] theorem bumpI_draws (x : Reg) (s : State) : (bumpI x s).draws = s.draws := by unfold bumpI; split <;> rfl
@[simp] theorem bumpI_schedule (x : Reg) (s : State) : (bumpI x s).schedule = s.schedule := by unfold bumpI; split <;> rfl
@[simp] theorem bumpI_boot (x : Reg) (s : State) : (bumpI x s).boot = s.boot := by unfold bumpI; split <;> rfl
@[simp] theorem bumpI_beepLog (x : Reg) (s : State) : (bumpI x s).beepLog = s.beepLog := by unfold bumpI; split <;> rfl

/-! ### `State.afterFetch` -/

@[simp] theorem State.afterFetch_v (s : State) (w : Word) : (s.afterFetch w).v = s.v := rfl
@[simp] theorem State.afterFetch_i (s : State) (w : Word) : (s.afterFetch w).i = s.i := rfl
@[simp] theorem State.afterFetch_pc (s : State) (w : Word) :
    (s.afterFetch w).pc = s.pc + 2 := rfl
@[simp] theorem State.afterFetch_stack (s : State) (w : Word) : (s.afterFetch w).stack = s.stack := rfl
@[simp] theorem State.afterFetch_sp (s : State) (w : Word) : (s.afterFetch w).sp = s.sp := rfl
@[simp] theorem State.afterFetch_dt (s : State) (w : Word) : (s.afterFetch w).dt = s.dt := rfl
@[simp] theorem State.afterFetch_st (s : State) (w : Word) : (s.afterFetch w).st = s.st := rfl
@[simp] theorem State.afterFetch_mem (s : State) (w : Word) : (s.afterFetch w).mem = s.mem := rfl
@[simp] theorem State.afterFetch_screen (s : State) (w : Word) : (s.afterFetch w).screen = s.screen := rfl
@[simp] theorem State.afterFetch_redraw (s : State) (w : Word) : (s.afterFetch w).redraw = s.redraw := rfl
@[simp] theorem State.afterFetch_keys (s : State) (w : Word) : (s.afterFetch w).keys = s.keys := rfl
@[simp] theorem State.afterFetch_lastKey (s : State) (w : Word) : (s.afterFetch w).lastKey = s.lastKey := rfl
@[simp] theorem State.afterFetch_paused (s : State) (w : Word) : (s.afterFetch w).paused = s.paused := rfl
@[simp] theorem State.afterFetch_ir (s : State) (w : Word) :
    (s.afterFetch w).ir = w := rfl
@[simp] theorem State.afterFetch_waitKey (s : State) (w : Word) : (s.afterFetch w).waitKey = s.waitKey := rfl
@[simp] theorem State.afterFetch_status (s : State) (w : Word) : (s.afterFetch w).status = s.status := rfl
@[simp] theorem State.afterFetch_faultCause (s : State) (w : Word) : (s.afterFetch w).faultCause = s.faultCause := rfl
@[simp] theorem State.afterFetch_faultInfo (s : State) (w : Word) : (s.afterFetch w).faultInfo = s.faultInfo := rfl
@[simp] theorem State.afterFetch_beep (s : State) (w : Word) : (s.afterFetch w).beep = s.beep := rfl
@[simp] theorem State.afterFetch_cfg (s : State) (w : Word) : (s.afterFetch w).cfg = s.cfg := rfl
@[simp] theorem State.afterFetch_draws (s : State) (w : Word) : (s.afterFetch w).draws = s.draws := rfl
@[simp] theorem State.afterFetch_schedule (s : State) (w : Word) : (s.afterFetch w).schedule = s.schedule := rfl
@[simp] theorem State.afterFetch_boot (s : State) (w : Word) : (s.afterFetch w).boot = s.boot := rfl
@[simp] theorem State.afterFetch_beepLog (s : State) (w : Word) : (s.afterFetch w).beepLog = s.beepLog := rfl

/-! ### `deliverKey` -/

@[simp] theorem deliverKey_v (k : Key) (s : State) :
    (deliverKey k s).v = s.v.set (fieldX s.ir) (BitVec.ofNat 8 k.val) := rfl
@[simp] theorem deliverKey_i (k : Key) (s : State) : (deliverKey k s).i = s.i := rfl
@[simp] theorem deliverKey_pc (k : Key) (s : State) : (deliverKey k s).pc = s.pc := rfl
@[simp] theorem deliverKey_stack (k : Key) (s : State) : (deliverKey k s).stack = s.stack := rfl
@[simp] theorem deliverKey_sp (k : Key) (s : State) : (deliverKey k s).sp = s.sp := rfl
@[simp] theorem deliverKey_dt (k : Key) (s : State) : (deliverKey k s).dt = s.dt := rfl
@[simp] theorem deliverKey_st (k : Key) (s : State) : (deliverKey k s).st = s.st := rfl
@[simp] theorem deliverKey_mem (k : Key) (s : State) : (deliverKey k s).mem = s.mem := rfl
@[simp] theorem deliverKey_screen (k : Key) (s : State) : (deliverKey k s).screen = s.screen := rfl
@[simp] theorem deliverKey_redraw (k : Key) (s : State) : (deliverKey k s).redraw = s.redraw := rfl
@[simp] theorem deliverKey_keys (k : Key) (s : State) : (deliverKey k s).keys = s.keys := rfl
@[simp] theorem deliverKey_lastKey (k : Key) (s : State) :
    (deliverKey k s).lastKey = none := rfl
@[simp] theorem deliverKey_paused (k : Key) (s : State) : (deliverKey k s).paused = s.paused := rfl
@[simp] theorem deliverKey_ir (k : Key) (s : State) : (deliverKey k s).ir = s.ir := rfl
@[simp] theorem deliverKey_waitKey (k : Key) (s : State) :
    (deliverKey k s).waitKey = false := rfl
@[simp] theorem deliverKey_status (k : Key) (s : State) : (deliverKey k s).status = s.status := rfl
@[simp] theorem deliverKey_faultCause (k : Key) (s : State) : (deliverKey k s).faultCause = s.faultCause := rfl
@[simp] theorem deliverKey_faultInfo (k : Key) (s : State) : (deliverKey k s).faultInfo = s.faultInfo := rfl
@[simp] theorem deliverKey_beep (k : Key) (s : State) : (deliverKey k s).beep = s.beep := rfl
@[simp] theorem deliverKey_cfg (k : Key) (s : State) : (deliverKey k s).cfg = s.cfg := rfl
@[simp] theorem deliverKey_draws (k : Key) (s : State) : (deliverKey k s).draws = s.draws := rfl
@[simp] theorem deliverKey_schedule (k : Key) (s : State) : (deliverKey k s).schedule = s.schedule := rfl
@[simp] theorem deliverKey_boot (k : Key) (s : State) : (deliverKey k s).boot = s.boot := rfl
@[simp] theorem deliverKey_beepLog (k : Key) (s : State) : (deliverKey k s).beepLog = s.beepLog := rfl

/-! ### `tick` -/

@[simp] theorem tick_v (s : State) : (tick s).v = s.v := by
  unfold tick tickDelay tickSound; (repeat' split) <;> rfl
@[simp] theorem tick_i (s : State) : (tick s).i = s.i := by
  unfold tick tickDelay tickSound; (repeat' split) <;> rfl
@[simp] theorem tick_pc (s : State) : (tick s).pc = s.pc := by
  unfold tick tickDelay tickSound; (repeat' split) <;> rfl
@[simp] theorem tick_stack (s : State) : (tick s).stack = s.stack := by
  unfold tick tickDelay tickSound; (repeat' split) <;> rfl
@[simp] theorem tick_sp (s : State) : (tick s).sp = s.sp := by
  unfold tick tickDelay tickSound; (repeat' split) <;> rfl
@[simp] theorem tick_mem (s : State) : (tick s).mem = s.mem := by
  unfold tick tickDelay tickSound; (repeat' split) <;> rfl
@[simp] theorem tick_screen (s : State) : (tick s).screen = s.screen := by
  unfold tick tickDelay tickSound; (repeat' split) <;> rfl
@[simp] theorem tick_redraw (s : State) : (tick s).redraw = s.redraw := by
  unfold tick tickDelay tickSound; (repeat' split) <;> rfl
@[simp] theorem tick_keys (s : State) : (tick s).keys = s.keys := by
  unfold tick tickDelay tickSound; (repeat' split) <;> rfl
@[simp] theorem tick_lastKey (s : State) : (tick s).lastKey = s.lastKey := by
  unfold tick tickDelay tickSound; (repeat' split) <;> rfl
@[simp] theorem tick_paused (s : State) : (tick s).paused = s.paused := by
  unfold tick tickDelay tickSound; (repeat' split) <;> rfl
@[simp] theorem tick_ir (s : State) : (tick s).ir = s.ir := by
  unfold tick tickDelay tickSound; (repeat' split) <;> rfl
@[simp] theorem tick_waitKey (s : State) : (tick s).waitKey = s.waitKey := by
  unfold tick tickDelay tickSound; (repeat' split) <;> rfl
@[simp] theorem tick_status (s : State) : (tick s).status = s.status := by
  unfold tick tickDelay tickSound; (repeat' split) <;> rfl
@[simp] theorem tick_faultCause (s : State) : (tick s).faultCause = s.faultCause := by
  unfold tick tickDelay tickSound; (repeat' split) <;> rfl
@[simp] theorem tick_faultInfo (s : State) : (tick s).faultInfo = s.faultInfo := by
  unfold tick tickDelay tickSound; (repeat' split) <;> rfl
@[simp] theorem tick_cfg (s : State) : (tick s).cfg = s.cfg := by
  unfold tick tickDelay tickSound; (repeat' split) <;> rfl
@[simp] theorem tick_draws (s : State) : (tick s).draws = s.draws := by
  unfold tick tickDelay tickSound; (repeat' split) <;> rfl
@[simp] theorem tick_schedule (s : State) : (tick s).schedule = s.schedule := by
  unfold tick tickDelay tickSound; (repeat' split) <;> rfl
@[simp] theorem tick_boot (s : State) : (tick s).boot = s.boot := by
  unfold tick tickDelay tickSound; (repeat' split) <;> rfl

/-! ### `keyDown` -/

@[simp] theorem keyDown_v (k : Nat) (s : State) : (keyDown k s).v = s.v := by unfold keyDown; split <;> rfl
@[simp] theorem keyDown_i (k : Nat) (s : State) : (keyDown k s).i = s.i := by unfold keyDown; split <;> rfl
@[simp] theorem keyDown_pc (k : Nat) (s : State) : (keyDown k s).pc = s.pc := by unfold keyDown; split <;> rfl
@[simp] theorem keyDown_stack (k : Nat) (s : State) : (keyDown k s).stack = s.stack := by unfold keyDown; split <;> rfl
@[simp] theorem keyDown_sp (k : Nat) (s : State) : (keyDown k s).sp = s.sp := by unfold keyDown; split <;> rfl
@[simp] theorem keyDown_dt (k : Nat) (s : State) : (keyDown k s).dt = s.dt := by unfold keyDown; split <;> rfl
@[simp] theorem keyDown_st (k : Nat) (s : State) : (keyDown k s).st = s.st := by unfold keyDown; split <;> rfl
@[simp] theorem keyDown_mem (k : Nat) (s : State) : (keyDown k s).mem = s.mem := by unfold keyDown; split <;> rfl
@[simp] theorem keyDown_screen (k : Nat) (s : State) : (keyDown k s).screen = s.screen := by unfold keyDown; split <;> rfl
@[simp] theorem keyDown_redraw (k : Nat) (s : State) : (keyDown k s).redraw = s.redraw := by unfold keyDown; split <;> rfl
@[simp] theorem keyDown_paused (k : Nat) (s : State) : (keyDown k s).paused = s.paused := by unfold keyDown; split <;> rfl
@[simp] theorem keyDown_ir (k : Nat) (s : State) : (keyDown k s).ir = s.ir := by unfold keyDown; split <;> rfl
@[simp] theorem keyDown_waitKey (k : Nat) (s : State) : (keyDown k s).waitKey = s.waitKey := by unfold keyDown; split <;> rfl
@[simp] theorem keyDown_status (k : Nat) (s : State) : (keyDown k s).status = s.status := by unfold keyDown; split <;> rfl
@[simp] theorem keyDown_faultCause (k : Nat) (s : State) : (keyDown k s).faultCause = s.faultCause := by unfold keyDown; split <;> rfl
@[simp] theorem keyDown_faultInfo (k : Nat) (s : State) : (keyDown k s).faultInfo = s.faultInfo := by unfold keyDown; split <;> rfl
@[simp] theorem keyDown_beep (k : Nat) (s : State) : (keyDown k s).beep = s.beep := by unfold keyDown; split <;> rfl
@[simp] theorem keyDown_cfg (k : Nat) (s : State) : (keyDown k s).cfg = s.cfg := by unfold keyDown; split <;> rfl
@[simp] theorem keyDown_draws (k : Nat) (s : State) : (keyDown k s).draws = s.draws := by unfold keyDown; split <;> rfl
@[simp] theorem keyDown_schedule (k : Nat) (s : State) : (keyDown k s).schedule = s.schedule := by unfold keyDown; split <;> rfl
@[simp] theorem keyDown_boot (k : Nat) (s : State) : (keyDown k s).boot = s.boot := by unfold keyDown; split <;> rfl
@[simp] theorem keyDown_beepLog (k : Nat) (s : State) : (keyDown k s).beepLog = s.beepLog := by unfold keyDown; split <;> rfl

/-! ### `keyUp` -/

@[simp] theorem keyUp_v (k : Nat) (s : State) : (keyUp k s).v = s.v := by unfold keyUp; split <;> rfl
@[simp] theorem keyUp_i (k : Nat) (s : State) : (keyUp k s).i = s.i := by unfold keyUp; split <;> rfl
@[simp] theorem keyUp_pc (k : Nat) (s : State) : (keyUp k s).pc = s.pc := by unfold keyUp; split <;> rfl
@[simp] theorem keyUp_stack (k : Nat) (s : State) : (keyUp k s).stack = s.stack := by unfold keyUp; split <;> rfl
@[simp] theorem keyUp_sp (k : Nat) (s : State) : (keyUp k s).sp = s.sp := by unfold keyUp; split <;> rfl
@[simp] theorem keyUp_dt (k : Nat) (s : State) : (keyUp k s).dt = s.dt := by unfold keyUp; split <;> rfl
@[simp] theorem keyUp_st (k : Nat) (s : State) : (keyUp k s).st = s.st := by unfold keyUp; split <;> rfl
@[simp] theorem keyUp_mem (k : Nat) (s : State) : (keyUp k s).mem = s.mem := by unfold keyUp; split <;> rfl
@[simp] theorem keyUp_screen (k : Nat) (s : State) : (keyUp k s).screen = s.screen := by unfold keyUp; split <;> rfl
@[simp] theorem keyUp_redraw (k : Nat) (s : State) : (keyUp k s).redraw = s.redraw := by unfold keyUp; split <;> rfl
@[simp] theorem keyUp_lastKey (k : Nat) (s : State) : (keyUp k s).lastKey = s.lastKey := by unfold keyUp; split <;> rfl
@[simp] theorem keyUp_paused (k : Nat) (s : State) : (keyUp k s).paused = s.paused := by unfold keyUp; split <;> rfl
@[simp] theorem keyUp_ir (k : Nat) (s : State) : (keyUp k s).ir = s.ir := by unfold keyUp; split <;> rfl
@[simp] theorem keyUp_waitKey (k : Nat) (s : State) : (keyUp k s).waitKey = s.waitKey := by unfold keyUp; split <;> rfl
@[simp] theorem keyUp_status (k : Nat) (s : State) : (keyUp k s).status = s.status := by unfold keyUp; split <;> rfl
@[simp] theorem keyUp_faultCause (k : Nat) (s : State) : (keyUp k s).faultCause = s.faultCause := by unfold keyUp; split <;> rfl
@[simp] theorem keyUp_faultInfo (k : Nat) (s : State) : (keyUp k s).faultInfo = s.faultInfo := by unfold keyUp; split <;> rfl
@[simp] theorem keyUp_beep (k : Nat) (s : State) : (keyUp k s).beep = s.beep := by unfold keyUp; split <;> rfl
@[simp] theorem keyUp_cfg (k : Nat) (s : State) : (keyUp k s).cfg = s.cfg := by unfold keyUp; split <;> rfl
@[simp] theorem keyUp_draws (k : Nat) (s : State) : (keyUp k s).draws = s.draws := by unfold keyUp; split <;> rfl
@[simp] theorem keyUp_schedule (k : Nat) (s : State) : (keyUp k s).schedule = s.schedule := by unfold keyUp; split <;> rfl
@[simp] theorem keyUp_boot (k : Nat) (s : State) : (keyUp k s).boot = s.boot := by unfold keyUp; split <;> rfl
@[simp] theorem keyUp_beepLog (k : Nat) (s : State) : (keyUp k s).beepLog = s.beepLog := by unfold keyUp; split <;> rfl

/-! ### `pause` -/

@[simp] theorem pause_v (s : State) : (pause s).v = s.v := rfl
@[simp] theorem pause_i (s : State) : (pause s).i = s.i := rfl
@[simp] theorem pause_pc (s : State) : (pause s).pc = s.pc := rfl
@[simp] theorem pause_stack (s : State) : (pause s).stack = s.stack := rfl
@[simp] theorem pause_sp (s : State) : (pause s).sp = s.sp := rfl
@[simp] theorem pause_dt (s : State) : (pause s).dt = s.dt := rfl
@[simp] theorem pause_st (s : State) : (pause s).st = s.st := rfl
@[simp] theorem pause_mem (s : State) : (pause s).mem = s.mem := rfl
@[simp] theorem pause_screen (s : State) : (pause s).screen = s.screen := rfl
@[simp] theorem pause_redraw (s : State) : (pause s).redraw = s.redraw := rfl
@[simp] theorem pause_keys (s : State) : (pause s).keys = s.keys := rfl
@[simp] theorem pause_lastKey (s : State) : (pause s).lastKey = s.lastKey := rfl
@[simp] theorem pause_paused (s : State) :
    (pause s).paused = true := rfl
@[simp] theorem pause_ir (s : State) : (pause s).ir = s.ir := rfl
@[simp] theorem pause_waitKey (s : State) : (pause s).waitKey = s.waitKey := rfl
@[simp] theorem pause_status (s : State) : (pause s).status = s.status := rfl
@[simp] theorem pause_faultCause (s : State) : (pause s).faultCause = s.faultCause := rfl
@[simp] theorem pause_faultInfo (s : State) : (pause s).faultInfo = s.faultInfo := rfl
@[simp] theorem pause_beep (s : State) : (pause s).beep = s.beep := rfl
@[simp] theorem pause_cfg (s : State) : (pause s).cfg = s.cfg := rfl
@[simp] theorem pause_draws (s : State) : (pause s).draws = s.draws := rfl
@[simp] theorem pause_schedule (s : State) : (pause s).schedule = s.schedule := rfl
@[simp] theorem pause_boot (s : State) : (pause s).boot = s.boot := rfl
@[simp] theorem pause_beepLog (s : State) : (pause s).beepLog = s.beepLog := rfl

/-! ### `resume` -/

@[simp] theorem resume_v (s : State) : (resume s).v = s.v := rfl
@[simp] theorem resume_i (s : State) : (resume s).i = s.i := rfl
@[simp] theorem resume_pc (s : State) : (resume s).pc = s.pc := rfl
@[simp] theorem resume_stack (s : State) : (resume s).stack = s.stack := rfl
@[simp] theorem resume_sp (s : State) : (resume s).sp = s.sp := rfl
@[simp] theorem resume_dt (s : State) : (resume s).dt = s.dt := rfl
@[simp] theorem resume_st (s : State) : (resume s).st = s.st := rfl
@[simp] theorem resume_mem (s : State) : (resume s).mem = s.mem := rfl
@[simp] theorem resume_screen (s : State) : (resume s).screen = s.screen := rfl
@[simp] theorem resume_redraw (s : State) : (resume s).redraw = s.redraw := rfl
@[simp] theorem resume_keys (s : State) : (resume s).keys = s.keys := rfl
@[simp] theorem resume_lastKey (s : State) : (resume s).lastKey = s.lastKey := rfl
@[simp] theorem resume_paused (s : State) :
    (resume s).paused = false := rfl
@[simp] theorem resume_ir (s : State) : (resume s).ir = s.ir := rfl
@[simp] theorem resume_waitKey (s : State) : (resume s).waitKey = s.waitKey := rfl
@[simp] theorem resume_status (s : State) : (resume s).status = s.status := rfl
@[simp] theorem resume_faultCause (s : State) : (resume s).faultCause = s.faultCause := rfl
@[simp] theorem resume_faultInfo (s : State) : (resume s).faultInfo = s.faultInfo := rfl
@[simp] theorem resume_beep (s : State) : (resume s).beep = s.beep := rfl
@[simp] theorem resume_cfg (s : State) : (resume s).cfg = s.cfg := rfl
@[simp] theorem resume_draws (s : State) : (resume s).draws = s.draws := rfl
@[simp] theorem resume_schedule (s : State) : (resume s).schedule = s.schedule := rfl
@[simp] theorem resume_boot (s : State) : (resume s).boot = s.boot := rfl
@[simp] theorem resume_beepLog (s : State) : (resume s).beepLog = s.beepLog := rfl

/-! ### `clearRedraw` -/

@[simp] theorem clearRedraw_v (s : State) : (clearRedraw s).v = s.v := rfl
@[simp] theorem clearRedraw_i (s : State) : (clearRedraw s).i = s.i := rfl
@[simp] theorem clearRedraw_pc (s : State) : (clearRedraw s).pc = s.pc := rfl
@[simp] theorem clearRedraw_stack (s : State) : (clearRedraw s).stack = s.stack := rfl
@[simp] theorem clearRedraw_sp (s : State) : (clearRedraw s).sp = s.sp := rfl
@[simp] theorem clearRedraw_dt (s : State) : (clearRedraw s).dt = s.dt := rfl
@[simp] theorem clearRedraw_st (s : State) : (clearRedraw s).st = s.st := rfl
@[simp] theorem clearRedraw_mem (s : State) : (clearRedraw s).mem = s.mem := rfl
@[simp] theorem clearRedraw_screen (s : State) : (clearRedraw s).screen = s.screen := rfl
@[simp] theorem clearRedraw_redraw (s : State) :
    (clearRedraw s).redraw = false := rfl
@[simp] theorem clearRedraw_keys (s : State) : (clearRedraw s).keys = s.keys := rfl
@[simp] theorem clearRedraw_lastKey (s : State) : (clearRedraw s).lastKey = s.lastKey := rfl
@[simp] theorem clearRedraw_paused (s : State) : (clearRedraw s).paused = s.paused := rfl
@[simp] theorem clearRedraw_ir (s : State) : (clearRedraw s).ir = s.ir := rfl
@[simp] theorem clearRedraw_waitKey (s : State) : (clearRedraw s).waitKey = s.waitKey := rfl
@[simp] theorem clearRedraw_status (s : State) : (clearRedraw s).status = s.status := rfl
@[simp] theorem clearRedraw_faultCause (s : State) : (clearRedraw s).faultCause = s.faultCause := rfl
@[simp] theorem clearRedraw_faultInfo (s : State) : (clearRedraw s).faultInfo = s.faultInfo := rfl
@[simp] theorem clearRedraw_beep (s : State) : (clearRedraw s).beep = s.beep := rfl
@[simp] theorem clearRedraw_cfg (s : State) : (clearRedraw s).cfg = s.cfg := rfl
@[simp] theorem clearRedraw_draws (s : State) : (clearRedraw s).draws = s.draws := rfl
@[simp] theorem clearRedraw_schedule (s : State) : (clearRedraw s).schedule = s.schedule := rfl
@[simp] theorem clearRedraw_boot (s : State) : (clearRedraw s).boot = s.boot := rfl
@[simp] theorem clearRedraw_beepLog (s : State) : (clearRedraw s).beepLog = s.beepLog := rfl

/-! ### `loadRom` -/

@[simp] theorem loadRom_v (bytes : List Byte) (s : State) : (loadRom bytes s).v = s.v := by unfold loadRom; split <;> rfl
@[simp] theorem loadRom_i (bytes : List Byte) (s : State) : (loadRom bytes s).i = s.i := by unfold loadRom; split <;> rfl
@[simp] theorem loadRom_pc (bytes : List Byte) (s : State) : (loadRom bytes s).pc = s.pc := by unfold loadRom; split <;> rfl
@[simp] theorem loadRom_stack (bytes : List Byte) (s : State) : (loadRom bytes s).stack = s.stack := by unfold loadRom; split <;> rfl
@[simp] theorem loadRom_sp (bytes : List Byte) (s : State) : (loadRom bytes s).sp = s.sp := by unfold loadRom; split <;> rfl
@[simp] theorem loadRom_dt (bytes : List Byte) (s : State) : (loadRom bytes s).dt = s.dt := by unfold loadRom; split <;> rfl
@[simp] theorem loadRom_st (bytes : List Byte) (s : State) : (loadRom bytes s).st = s.st := by unfold loadRom; split <;> rfl
@[simp] theorem loadRom_screen (bytes : List Byte) (s : State) : (loadRom bytes s).screen = s.screen := by unfold loadRom; split <;> rfl
@[simp] theorem loadRom_redraw (bytes : List Byte) (s : State) : (loadRom bytes s).redraw = s.redraw := by unfold loadRom; split <;> rfl
@[simp] theorem loadRom_keys (bytes : List Byte) (s : State) : (loadRom bytes s).keys = s.keys := by unfold loadRom; split <;> rfl
@[simp] theorem loadRom_lastKey (bytes : List Byte) (s : State) : (loadRom bytes s).lastKey = s.lastKey := by unfold loadRom; split <;> rfl
@[simp] theorem loadRom_paused (bytes : List Byte) (s : State) : (loadRom bytes s).paused = s.paused := by unfold loadRom; split <;> rfl
@[simp] theorem loadRom_ir (bytes : List Byte) (s : State) : (loadRom bytes s).ir = s.ir := by unfold loadRom; split <;> rfl
@[simp] theorem loadRom_waitKey (bytes : List Byte) (s : State) : (loadRom bytes s).waitKey = s.waitKey := by unfold loadRom; split <;> rfl
@[simp] theorem loadRom_status (bytes : List Byte) (s : State) : (loadRom bytes s).status = s.status := by unfold loadRom; split <;> rfl
@[simp] theorem loadRom_faultCause (bytes : List Byte) (s : State) : (loadRom bytes s).faultCause = s.faultCause := by unfold loadRom; split <;> rfl
@[simp] theorem loadRom_faultInfo (bytes : List Byte) (s : State) : (loadRom bytes s).faultInfo = s.faultInfo := by unfold loadRom; split <;> rfl
@[simp] theorem loadRom_beep (bytes : List Byte) (s : State) : (loadRom bytes s).beep = s.beep := by unfold loadRom; split <;> rfl
@[simp] theorem loadRom_cfg (bytes : List Byte) (s : State) : (loadRom bytes s).cfg = s.cfg := by unfold loadRom; split <;> rfl
@[simp] theorem loadRom_draws (bytes : List Byte) (s : State) : (loadRom bytes s).draws = s.draws := by unfold loadRom; split <;> rfl
@[simp] theorem loadRom_schedule (bytes : List Byte) (s : State) : (loadRom bytes s).schedule = s.schedule := by unfold loadRom; split <;> rfl
@[simp] theorem loadRom_beepLog (bytes : List Byte) (s : State) : (loadRom bytes s).beepLog = s.beepLog := by unfold loadRom; split <;> rfl

end Sys2Proof.Machine
end

