-- ==== Sys2Proof/Laws/Ops.lean ====
section
/-! SUPPORT. One lemma per shared operation that says everything it can do. The provers cite these instead of unfolding. -/

namespace Sys2Proof.Machine

variable {s t : State}

/-! ### General registers -/

theorem State.readV_writeV (x k : Reg) (b : Byte) :
    (s.writeV x b).readV k = if k = x then b else s.readV k := by
  simp only [State.readV, State.writeV_v, Fin.getElem_fin, Vector.getElem_set, Fin.ext_iff, eq_comm]

@[simp] theorem State.readV_writeV_same (x : Reg) (b : Byte) : (s.writeV x b).readV x = b := by
  simp [State.readV_writeV]

@[simp] theorem State.readV_writeV_other {x k : Reg} (b : Byte) (h : k ≠ x) :
    (s.writeV x b).readV k = s.readV k := by
  simp [State.readV_writeV, h]

theorem State.readV_writeVs (bytes : List Byte) (k : Reg) :
    (s.writeVs bytes).readV k = bytes.getD k (s.readV k) := by
  simp [State.readV]

/-- Result first, flag last: VF is the flag, `V[x]` the result where `x` is not 15, the rest unchanged (R142). -/
theorem readV_writeResultFlag (x k : Reg) (r : Byte) (f : Bool) :
    (writeResultFlag x r f s).readV k =
      if k = 15 then flagByte f else if k = x then r else s.readV k := by
  unfold writeResultFlag regVF; rw [State.readV_writeV, State.readV_writeV]

theorem toNat_flagByte (b : Bool) : (flagByte b).toNat = if b then 1 else 0 := by cases b <;> rfl

/-- What reads as before when the registers are the same. -/
theorem State.readV_congr (h : t.v = s.v) (k : Reg) : t.readV k = s.readV k := by
  simp [State.readV, h]

/-- What reads as before when memory and the font are the same. -/
theorem State.readByte_congr (hm : t.mem = s.mem) (hc : t.cfg = s.cfg) (a : Nat) :
    t.readByte a = s.readByte a := by
  simp [State.readByte, hm, hc]

/-! ### Memory -/

theorem State.readBytes_length (addr n : Nat) : (s.readBytes addr n).length = n := by
  simp [State.readBytes]

theorem State.getElem_readBytes (addr n k : Nat) (h : k < (s.readBytes addr n).length) :
    (s.readBytes addr n)[k] = s.readByte (addr + k) := by
  simp [State.readBytes]

/-- `MemRead` answers exactly the bytes of a range within memory. -/
theorem memRead_eq_some (addr n : Nat) (bytes : List Byte) :
    memRead s addr n = some bytes ↔ inBounds addr n = true ∧ bytes = s.readBytes addr n := by
  unfold memRead
  split
  · rename_i h; simp [h, eq_comm]
  · rename_i h; simp [h]

theorem inBounds_iff (addr n : Nat) : inBounds addr n = true ↔ n = 0 ∨ addr + n ≤ 4096 := by
  unfold inBounds memSize
  rw [Bool.or_eq_true, decide_eq_true_eq, decide_eq_true_eq]

theorem memRead_eq_none (addr n : Nat) : memRead s addr n = none ↔ n ≠ 0 ∧ memSize < addr + n := by
  unfold memRead inBounds
  split <;> rename_i h <;> simp at h ⊢ <;> omega

/-- If `MemWrite` answers a state, its range was within memory and only the memory changed, by the stores of R64. -/
theorem memWrite_eq_some (addr : Nat) (bytes : List Byte) :
    memWrite s addr bytes = some t ↔ inBounds addr bytes.length = true ∧
      t = { s with mem := Memory.writeList s.cfg.fontData s.mem addr bytes } := by
  unfold memWrite
  split
  · rename_i h; simp [h, eq_comm]
  · rename_i h; simp [h]

theorem memWrite_eq_none (addr : Nat) (bytes : List Byte) :
    memWrite s addr bytes = none ↔ bytes ≠ [] ∧ memSize < addr + bytes.length := by
  unfold memWrite inBounds
  cases bytes with
  | nil => simp
  | cons v rest => simp

/-- Every byte outside the stored ones reads as before. -/
theorem memWrite_readByte_outside {addr a : Nat} {bytes : List Byte} (h : memWrite s addr bytes = some t)
    (ha : a < addr ∨ addr + bytes.length ≤ a) : t.readByte a = s.readByte a := by
  obtain ⟨-, rfl⟩ := (memWrite_eq_some addr bytes).1 h
  exact Memory.read_writeList_outside ha

/-- The `k`-th stored byte reads as what was stored. -/
theorem memWrite_readByte_inside {addr k : Nat} {bytes : List Byte} (h : memWrite s addr bytes = some t)
    (hwf : Memory.wf s.cfg.fontData s.mem = true) (hk : k < bytes.length) :
    t.readByte (addr + k) = bytes[k] := by
  obtain ⟨-, rfl⟩ := (memWrite_eq_some addr bytes).1 h
  exact Memory.read_writeList_inside (Memory.wf_iff.1 hwf).1 hk

/-- `MemWrite` keeps the canonical form. -/
theorem memWrite_wf {addr : Nat} {bytes : List Byte} (h : memWrite s addr bytes = some t)
    (hwf : Memory.wf s.cfg.fontData s.mem = true) : Memory.wf t.cfg.fontData t.mem = true := by
  obtain ⟨hb, rfl⟩ := (memWrite_eq_some addr bytes).1 h
  refine Memory.wf_writeList hwf ?_
  simpa [inBounds] using hb

/-! ### Call stack -/

theorem readStack_pushStack (w : Word) (k : Slot) :
    (pushStack s w).readStack k = if k = s.sp + 1 then w else s.readStack k := by
  simp only [State.readStack, pushStack, Fin.getElem_fin, Vector.getElem_set, Fin.ext_iff, eq_comm]

/-! ### Screen -/

theorem Screen.pixel_setPixel (sc : Screen) (c c' : Fin 64) (r r' : Fin 32) (b : Bool) :
    (sc.setPixel c r b).pixel c' r' = if c' = c ∧ r' = r then b else sc.pixel c' r' := by
  simp only [Screen.pixel, Screen.setPixel, Fin.getElem_fin, Vector.getElem_set, Fin.ext_iff]
  by_cases hc : (c' : Nat) = c
  · by_cases hr : (r' : Nat) = r
    · simp [hc, hr]
    · simp [hc, hr, Ne.symm hr]
  · simp [hc, Ne.symm hc]

@[simp] theorem Screen.pixel_clear (c : Fin 64) (r : Fin 32) : Screen.clear.pixel c r = false := by
  simp [Screen.pixel, Screen.clear]

/-- Screens with the same pixels are equal. -/
theorem Screen.eq_of_pixel {sc sc' : Screen} (h : ∀ c r, sc.pixel c r = sc'.pixel c r) : sc = sc' := by
  apply Vector.ext
  intro c hc
  apply Vector.ext
  intro r hr
  exact h ⟨c, hc⟩ ⟨r, hr⟩

/-! ### Flags -/

theorem toNat_sumByte (a b : Byte) : (sumByte a b).toNat = (a.toNat + b.toNat) % 256 := by
  simp [sumByte]

theorem toNat_diffByte (a b : Byte) : (diffByte a b).toNat = (a.toNat + 256 - b.toNat) % 256 := by
  have ha := a.isLt
  have hb := b.isLt
  simp only [diffByte, BitVec.toNat_ofInt]
  omega

theorem diffByte_eq_sub (a b : Byte) : diffByte a b = a - b := by
  have hb := b.isLt
  apply BitVec.eq_of_toNat_eq
  rw [toNat_diffByte, BitVec.toNat_sub]
  omega

end Sys2Proof.Machine
end

