-- ==== Sys2Proof/Laws/Decode.lean ====
section
/-! SUPPORT. The opcode map is unambiguous, and how the fields of a word come apart. -/

namespace Sys2Proof.Laws

/-- Two rows that no word selects together. -/
def rowsApart (r q : OpcodeRow) : Bool := (r.pattern ^^^ q.pattern) &&& (r.mask &&& q.mask) != 0

/-- The patterns of R95 are disjoint, so their order does not matter. -/
theorem opcodeRows_disjoint : opcodeRows.Pairwise (fun r q => rowsApart r q = true) := by decide

theorem not_selects_of_apart {r q : OpcodeRow} {w : Word} (h : rowsApart r q = true) (hr : r.selects w = true) :
    q.selects w = false := by
  simp only [rowsApart, OpcodeRow.selects, bne_iff_ne, beq_iff_eq, beq_eq_false_iff_ne] at *
  intro hq
  apply h
  rw [← hr, ← hq]
  apply BitVec.eq_of_getLsbD_eq
  intro i _
  simp
  cases w.getLsbD i <;> simp
  cases r.mask.getLsbD i <;> cases q.mask.getLsbD i <;> simp

/-- A row that a word selects is the row the decoder finds. -/
theorem find_of_selects {rows : List OpcodeRow} {w : Word} (hp : rows.Pairwise (fun r q => rowsApart r q = true))
    (k : Nat) (hk : k < rows.length) (hs : rows[k].selects w = true) :
    rows.find? (fun r => r.selects w) = some rows[k] := by
  induction rows generalizing k with
  | nil => simp at hk
  | cons r rest ih =>
    rw [List.pairwise_cons] at hp
    cases k with
    | zero => simp at hs; simp [hs]
    | succ k =>
      have hk' : k < rest.length := by simpa using hk
      have hr : r.selects w = false := by
        by_contra hr
        have := not_selects_of_apart (hp.1 _ (List.getElem_mem hk')) (by simpa using hr)
        simp [this] at hs
      rw [List.find?_cons_of_neg (by simp [hr])]
      simpa using ih hp.2 k hk' (by simpa using hs)

/-- The decoder reads a word by the row the word selects. -/
theorem decodeWord_of_selects {w : Word} (k : Nat) (hk : k < opcodeRows.length)
    (hs : opcodeRows[k].selects w = true) : decodeWord w = some (opcodeRows[k].build w) := by
  rw [decodeWord, find_of_selects opcodeRows_disjoint k hk hs]; rfl

/-- A decoded word selects a row of the map, which built the instruction. -/
theorem decodeWord_eq_some {w : Word} {ins : Instr} (h : decodeWord w = some ins) :
    ∃ r ∈ opcodeRows, r.selects w = true ∧ r.build w = ins := by
  unfold decodeWord at h
  cases hf : opcodeRows.find? (fun r => r.selects w) with
  | none => simp [hf] at h
  | some r =>
    rw [hf] at h
    exact ⟨r, List.mem_of_find?_eq_some hf, List.find?_some (p := fun q : OpcodeRow => q.selects w) hf, by simpa using h⟩

/-! ### The bits of encoded words -/

theorem getLsbD_encodeNNN (op : BitVec 4) (nnn : Addr) (i : Nat) :
    (encodeNNN op nnn).getLsbD i = if i < 12 then nnn.getLsbD i else op.getLsbD (i - 12) :=
  BitVec.getLsbD_append

theorem getLsbD_encodeXKK (op : BitVec 4) (x : Reg) (kk : Byte) (i : Nat) :
    (encodeXKK op x kk).getLsbD i =
      if i < 8 then kk.getLsbD i else if i - 8 < 4 then (regBits x).getLsbD (i - 8)
      else op.getLsbD (i - 8 - 4) := by
  refine (BitVec.getLsbD_append (x := op ++ regBits x) (y := kk)).trans ?_
  congr 1; exact BitVec.getLsbD_append

theorem getLsbD_encodeXYN (op n : BitVec 4) (x y : Reg) (i : Nat) :
    (encodeXYN op x y n).getLsbD i =
      if i < 4 then n.getLsbD i else if i - 4 < 4 then (regBits y).getLsbD (i - 4)
      else if i - 4 - 4 < 4 then (regBits x).getLsbD (i - 4 - 4) else op.getLsbD (i - 4 - 4 - 4) := by
  refine (BitVec.getLsbD_append (x := op ++ regBits x ++ regBits y) (y := n)).trans ?_
  congr 1
  refine (BitVec.getLsbD_append (x := op ++ regBits x) (y := regBits y)).trans ?_
  congr 1; exact BitVec.getLsbD_append

theorem getLsbD_wordOfBytes (hi lo : Byte) (i : Nat) :
    (wordOfBytes hi lo).getLsbD i = if i < 8 then lo.getLsbD i else hi.getLsbD (i - 8) :=
  BitVec.getLsbD_append

/-- Two words are equal if their 16 bits are. -/
theorem word_ext {a b : Word} (h : ∀ i < 16, a.getLsbD i = b.getLsbD i) : a = b :=
  BitVec.eq_of_getLsbD_eq h

/-! ### An encoded word selects the row of its format -/

theorem selects_encodeNNN {p : Word} {f : Word → Instr} (op : BitVec 4) (nnn : Addr)
    (hp : p = encodeNNN op 0) : (OpcodeRow.mk p 0xF000 f).selects (encodeNNN op nnn) = true := by
  subst hp
  simp only [OpcodeRow.selects, beq_iff_eq]
  apply word_ext
  intro i hi
  simp only [BitVec.getLsbD_and, getLsbD_encodeNNN]
  interval_cases i <;> simp

theorem selects_encodeXKK {p : Word} {f : Word → Instr} (op : BitVec 4) (x : Reg) (kk : Byte)
    (hp : p = encodeXKK op 0 0) : (OpcodeRow.mk p 0xF000 f).selects (encodeXKK op x kk) = true := by
  subst hp
  simp only [OpcodeRow.selects, beq_iff_eq]
  apply word_ext
  intro i hi
  simp only [BitVec.getLsbD_and, getLsbD_encodeXKK]
  interval_cases i <;> simp [regBits]

theorem selects_encodeXSUB {p : Word} {f : Word → Instr} (op : BitVec 4) (x : Reg) (kk : Byte)
    (hp : p = encodeXKK op 0 kk) : (OpcodeRow.mk p 0xF0FF f).selects (encodeXKK op x kk) = true := by
  subst hp
  simp only [OpcodeRow.selects, beq_iff_eq]
  apply word_ext
  intro i hi
  simp only [BitVec.getLsbD_and, getLsbD_encodeXKK]
  interval_cases i <;> simp [regBits]

theorem selects_encodeXYN {p : Word} {f : Word → Instr} (op n : BitVec 4) (x y : Reg)
    (hp : p = encodeXYN op 0 0 n) : (OpcodeRow.mk p 0xF00F f).selects (encodeXYN op x y n) = true := by
  subst hp
  simp only [OpcodeRow.selects, beq_iff_eq]
  apply word_ext
  intro i hi
  simp only [BitVec.getLsbD_and, getLsbD_encodeXYN]
  interval_cases i <;> simp [regBits]

theorem selects_encodeXYN_height {p : Word} {f : Word → Instr} (op n : BitVec 4) (x y : Reg)
    (hp : p = encodeXYN op 0 0 0) : (OpcodeRow.mk p 0xF000 f).selects (encodeXYN op x y n) = true := by
  subst hp
  simp only [OpcodeRow.selects, beq_iff_eq]
  apply word_ext
  intro i hi
  simp only [BitVec.getLsbD_and, getLsbD_encodeXYN]
  interval_cases i <;> simp [regBits]

/-! ### The fields of an encoded word -/

@[simp] theorem fieldNNN_encodeNNN (op : BitVec 4) (nnn : Addr) : fieldNNN (encodeNNN op nnn) = nnn := by
  apply BitVec.eq_of_getLsbD_eq
  intro i hi
  simp only [fieldNNN, BitVec.getLsbD_extractLsb', getLsbD_encodeNNN]
  simp [hi]

@[simp] theorem fieldKK_encodeXKK (op : BitVec 4) (x : Reg) (kk : Byte) : fieldKK (encodeXKK op x kk) = kk := by
  apply BitVec.eq_of_getLsbD_eq
  intro i hi
  simp only [fieldKK, BitVec.getLsbD_extractLsb', getLsbD_encodeXKK]
  simp [hi]

theorem toFin_of_eq_regBits {b : BitVec 4} {x : Reg} (h : b = regBits x) : b.toFin = x := by
  subst h; rfl

@[simp] theorem fieldX_encodeXKK (op : BitVec 4) (x : Reg) (kk : Byte) : fieldX (encodeXKK op x kk) = x := by
  apply toFin_of_eq_regBits
  apply BitVec.eq_of_getLsbD_eq
  intro i hi
  simp only [BitVec.getLsbD_extractLsb', getLsbD_encodeXKK]
  interval_cases i <;> simp

@[simp] theorem fieldX_encodeXYN (op n : BitVec 4) (x y : Reg) : fieldX (encodeXYN op x y n) = x := by
  apply toFin_of_eq_regBits
  apply BitVec.eq_of_getLsbD_eq
  intro i hi
  simp only [BitVec.getLsbD_extractLsb', getLsbD_encodeXYN]
  interval_cases i <;> simp

@[simp] theorem fieldY_encodeXYN (op n : BitVec 4) (x y : Reg) : fieldY (encodeXYN op x y n) = y := by
  apply toFin_of_eq_regBits
  apply BitVec.eq_of_getLsbD_eq
  intro i hi
  simp only [BitVec.getLsbD_extractLsb', getLsbD_encodeXYN]
  interval_cases i <;> simp

@[simp] theorem fieldN_encodeXYN (op n : BitVec 4) (x y : Reg) : fieldN (encodeXYN op x y n) = n.toNat := by
  unfold fieldN
  congr 1
  apply BitVec.eq_of_getLsbD_eq
  intro i hi
  simp only [BitVec.getLsbD_extractLsb', getLsbD_encodeXYN]
  interval_cases i <;> simp

/-- The two bytes of a word, high byte first, give it back (R66). -/
theorem wordOfBytes_bytesOfWord (w : Word) : wordOfBytes (w.extractLsb' 8 8) (w.extractLsb' 0 8) = w := by
  apply word_ext
  intro i hi
  simp only [getLsbD_wordOfBytes, BitVec.getLsbD_extractLsb']
  interval_cases i <;> simp

/-! ### A word that matches a row is the encoding of its own fields -/

theorem encodeNNN_fields (w : Word) (op : BitVec 4)
    (h : w &&& 0xF000 = encodeNNN op 0) : encodeNNN op (fieldNNN w) = w := by
  apply word_ext
  intro i hi
  have := congrArg (fun v : Word => v.getLsbD i) h
  simp only [BitVec.getLsbD_and, getLsbD_encodeNNN, fieldNNN, BitVec.getLsbD_extractLsb'] at this ⊢
  interval_cases i <;> simp_all

theorem encodeXKK_fields (w : Word) (op : BitVec 4)
    (h : w &&& 0xF000 = encodeXKK op 0 0) : encodeXKK op (fieldX w) (fieldKK w) = w := by
  apply word_ext
  intro i hi
  have := congrArg (fun v : Word => v.getLsbD i) h
  have hx : regBits (fieldX w) = w.extractLsb' 8 4 := rfl
  simp only [BitVec.getLsbD_and, getLsbD_encodeXKK, fieldKK, hx, BitVec.getLsbD_extractLsb'] at this ⊢
  interval_cases i <;> simp_all

theorem encodeXKK_fieldX (w : Word) (op : BitVec 4) (kk : Byte)
    (h : w &&& 0xF0FF = encodeXKK op 0 kk) : encodeXKK op (fieldX w) kk = w := by
  apply word_ext
  intro i hi
  have := congrArg (fun v : Word => v.getLsbD i) h
  have hx : regBits (fieldX w) = w.extractLsb' 8 4 := rfl
  simp only [BitVec.getLsbD_and, getLsbD_encodeXKK, hx, BitVec.getLsbD_extractLsb'] at this ⊢
  interval_cases i <;> simp_all

theorem encodeXYN_fields (w : Word) (op n : BitVec 4)
    (h : w &&& 0xF00F = encodeXYN op 0 0 n) : encodeXYN op (fieldX w) (fieldY w) n = w := by
  apply word_ext
  intro i hi
  have := congrArg (fun v : Word => v.getLsbD i) h
  have hx : regBits (fieldX w) = w.extractLsb' 8 4 := rfl
  have hy : regBits (fieldY w) = w.extractLsb' 4 4 := rfl
  simp only [BitVec.getLsbD_and, getLsbD_encodeXYN, hx, hy, BitVec.getLsbD_extractLsb'] at this ⊢
  interval_cases i <;> simp_all

theorem encodeXYN_fields_drw (w : Word) (op : BitVec 4)
    (h : w &&& 0xF000 = encodeXYN op 0 0 0) : encodeXYN op (fieldX w) (fieldY w) (BitVec.ofNat 4 (fieldN w)) = w := by
  apply word_ext
  intro i hi
  have := congrArg (fun v : Word => v.getLsbD i) h
  have hx : regBits (fieldX w) = w.extractLsb' 8 4 := rfl
  have hy : regBits (fieldY w) = w.extractLsb' 4 4 := rfl
  have hn : BitVec.ofNat 4 (fieldN w) = w.extractLsb' 0 4 := by
    apply BitVec.eq_of_toNat_eq
    rw [BitVec.toNat_ofNat]
    exact Nat.mod_eq_of_lt (w.extractLsb' 0 4).isLt
  simp only [BitVec.getLsbD_and, getLsbD_encodeXYN, hx, hy, hn, BitVec.getLsbD_extractLsb'] at this ⊢
  interval_cases i <;> simp_all

end Sys2Proof.Laws
end

