-- ==== Sys2Proof/Laws/PerInstr.lean ====
section
/-! SUPPORT. The family `EncodesRow`: the word of every well-formed instruction selects a row of the opcode map, and that
row's fields give the instruction back (spec/30_encoding.md R91, R95). One lemma per constructor. -/

namespace Sys2Proof.Laws.EncodesRow

/-- The encoded word selects a row whose fields build the instruction again. -/
def Statement (ins : Instr) : Prop :=
  ins.WellFormed → ∃ k : Nat, ∃ h : k < opcodeRows.length,
    opcodeRows[k].selects (encode ins) = true ∧ opcodeRows[k].build (encode ins) = ins

theorem cls : Statement .cls :=
  fun _ => ⟨0, by decide, by decide, rfl⟩

theorem ret : Statement .ret :=
  fun _ => ⟨1, by decide, by decide, rfl⟩

theorem jp (nnn : Addr) : Statement (.jp nnn) :=
  fun _ => ⟨2, by decide, selects_encodeNNN _ nnn (by decide), congrArg Instr.jp (fieldNNN_encodeNNN _ nnn)⟩

theorem call (nnn : Addr) : Statement (.call nnn) :=
  fun _ => ⟨3, by decide, selects_encodeNNN _ nnn (by decide), congrArg Instr.call (fieldNNN_encodeNNN _ nnn)⟩

theorem seImm (x : Reg) (kk : Byte) : Statement (.seImm x kk) :=
  fun _ => ⟨4, by decide, selects_encodeXKK _ x kk (by decide),
    congrArg₂ Instr.seImm (fieldX_encodeXKK _ x kk) (fieldKK_encodeXKK _ x kk)⟩

theorem sneImm (x : Reg) (kk : Byte) : Statement (.sneImm x kk) :=
  fun _ => ⟨5, by decide, selects_encodeXKK _ x kk (by decide),
    congrArg₂ Instr.sneImm (fieldX_encodeXKK _ x kk) (fieldKK_encodeXKK _ x kk)⟩

theorem seReg (x : Reg) (y : Reg) : Statement (.seReg x y) :=
  fun _ => ⟨6, by decide, selects_encodeXYN _ _ x y (by decide),
    congrArg₂ Instr.seReg (fieldX_encodeXYN _ _ x y) (fieldY_encodeXYN _ _ x y)⟩

theorem ldImm (x : Reg) (kk : Byte) : Statement (.ldImm x kk) :=
  fun _ => ⟨7, by decide, selects_encodeXKK _ x kk (by decide),
    congrArg₂ Instr.ldImm (fieldX_encodeXKK _ x kk) (fieldKK_encodeXKK _ x kk)⟩

theorem addImm (x : Reg) (kk : Byte) : Statement (.addImm x kk) :=
  fun _ => ⟨8, by decide, selects_encodeXKK _ x kk (by decide),
    congrArg₂ Instr.addImm (fieldX_encodeXKK _ x kk) (fieldKK_encodeXKK _ x kk)⟩

theorem ldReg (x : Reg) (y : Reg) : Statement (.ldReg x y) :=
  fun _ => ⟨9, by decide, selects_encodeXYN _ _ x y (by decide),
    congrArg₂ Instr.ldReg (fieldX_encodeXYN _ _ x y) (fieldY_encodeXYN _ _ x y)⟩

theorem or (x : Reg) (y : Reg) : Statement (.or x y) :=
  fun _ => ⟨10, by decide, selects_encodeXYN _ _ x y (by decide),
    congrArg₂ Instr.or (fieldX_encodeXYN _ _ x y) (fieldY_encodeXYN _ _ x y)⟩

theorem and (x : Reg) (y : Reg) : Statement (.and x y) :=
  fun _ => ⟨11, by decide, selects_encodeXYN _ _ x y (by decide),
    congrArg₂ Instr.and (fieldX_encodeXYN _ _ x y) (fieldY_encodeXYN _ _ x y)⟩

theorem xor (x : Reg) (y : Reg) : Statement (.xor x y) :=
  fun _ => ⟨12, by decide, selects_encodeXYN _ _ x y (by decide),
    congrArg₂ Instr.xor (fieldX_encodeXYN _ _ x y) (fieldY_encodeXYN _ _ x y)⟩

theorem addReg (x : Reg) (y : Reg) : Statement (.addReg x y) :=
  fun _ => ⟨13, by decide, selects_encodeXYN _ _ x y (by decide),
    congrArg₂ Instr.addReg (fieldX_encodeXYN _ _ x y) (fieldY_encodeXYN _ _ x y)⟩

theorem sub (x : Reg) (y : Reg) : Statement (.sub x y) :=
  fun _ => ⟨14, by decide, selects_encodeXYN _ _ x y (by decide),
    congrArg₂ Instr.sub (fieldX_encodeXYN _ _ x y) (fieldY_encodeXYN _ _ x y)⟩

theorem shr (x : Reg) (y : Reg) : Statement (.shr x y) :=
  fun _ => ⟨15, by decide, selects_encodeXYN _ _ x y (by decide),
    congrArg₂ Instr.shr (fieldX_encodeXYN _ _ x y) (fieldY_encodeXYN _ _ x y)⟩

theorem subn (x : Reg) (y : Reg) : Statement (.subn x y) :=
  fun _ => ⟨16, by decide, selects_encodeXYN _ _ x y (by decide),
    congrArg₂ Instr.subn (fieldX_encodeXYN _ _ x y) (fieldY_encodeXYN _ _ x y)⟩

theorem shl (x : Reg) (y : Reg) : Statement (.shl x y) :=
  fun _ => ⟨17, by decide, selects_encodeXYN _ _ x y (by decide),
    congrArg₂ Instr.shl (fieldX_encodeXYN _ _ x y) (fieldY_encodeXYN _ _ x y)⟩

theorem sneReg (x : Reg) (y : Reg) : Statement (.sneReg x y) :=
  fun _ => ⟨18, by decide, selects_encodeXYN _ _ x y (by decide),
    congrArg₂ Instr.sneReg (fieldX_encodeXYN _ _ x y) (fieldY_encodeXYN _ _ x y)⟩

theorem ldI (nnn : Addr) : Statement (.ldI nnn) :=
  fun _ => ⟨19, by decide, selects_encodeNNN _ nnn (by decide), congrArg Instr.ldI (fieldNNN_encodeNNN _ nnn)⟩

theorem jpV0 (nnn : Addr) : Statement (.jpV0 nnn) :=
  fun _ => ⟨20, by decide, selects_encodeNNN _ nnn (by decide), congrArg Instr.jpV0 (fieldNNN_encodeNNN _ nnn)⟩

theorem rnd (x : Reg) (kk : Byte) : Statement (.rnd x kk) :=
  fun _ => ⟨21, by decide, selects_encodeXKK _ x kk (by decide),
    congrArg₂ Instr.rnd (fieldX_encodeXKK _ x kk) (fieldKK_encodeXKK _ x kk)⟩

theorem drw (x : Reg) (y : Reg) (n : Nat) : Statement (.drw x y n) :=
  fun h => by
    have hn : n < 16 := by simpa [Instr.WellFormed, Instr.wellFormed] using h
    refine ⟨22, by decide, selects_encodeXYN_height _ _ x y (by decide), ?_⟩
    show Instr.drw (fieldX _) (fieldY _) (fieldN _) = _
    simp only [encode, fieldX_encodeXYN, fieldY_encodeXYN, fieldN_encodeXYN, BitVec.toNat_ofNat]
    rw [Nat.mod_eq_of_lt (by omega)]

theorem skp (x : Reg) : Statement (.skp x) :=
  fun _ => ⟨23, by decide, selects_encodeXSUB _ x _ (by decide), congrArg Instr.skp (fieldX_encodeXKK _ x _)⟩

theorem sknp (x : Reg) : Statement (.sknp x) :=
  fun _ => ⟨24, by decide, selects_encodeXSUB _ x _ (by decide), congrArg Instr.sknp (fieldX_encodeXKK _ x _)⟩

theorem ldVxDt (x : Reg) : Statement (.ldVxDt x) :=
  fun _ => ⟨25, by decide, selects_encodeXSUB _ x _ (by decide), congrArg Instr.ldVxDt (fieldX_encodeXKK _ x _)⟩

theorem ldVxK (x : Reg) : Statement (.ldVxK x) :=
  fun _ => ⟨26, by decide, selects_encodeXSUB _ x _ (by decide), congrArg Instr.ldVxK (fieldX_encodeXKK _ x _)⟩

theorem ldDtVx (x : Reg) : Statement (.ldDtVx x) :=
  fun _ => ⟨27, by decide, selects_encodeXSUB _ x _ (by decide), congrArg Instr.ldDtVx (fieldX_encodeXKK _ x _)⟩

theorem ldStVx (x : Reg) : Statement (.ldStVx x) :=
  fun _ => ⟨28, by decide, selects_encodeXSUB _ x _ (by decide), congrArg Instr.ldStVx (fieldX_encodeXKK _ x _)⟩

theorem addIVx (x : Reg) : Statement (.addIVx x) :=
  fun _ => ⟨29, by decide, selects_encodeXSUB _ x _ (by decide), congrArg Instr.addIVx (fieldX_encodeXKK _ x _)⟩

theorem ldFVx (x : Reg) : Statement (.ldFVx x) :=
  fun _ => ⟨30, by decide, selects_encodeXSUB _ x _ (by decide), congrArg Instr.ldFVx (fieldX_encodeXKK _ x _)⟩

theorem ldBVx (x : Reg) : Statement (.ldBVx x) :=
  fun _ => ⟨31, by decide, selects_encodeXSUB _ x _ (by decide), congrArg Instr.ldBVx (fieldX_encodeXKK _ x _)⟩

theorem ldMemVx (x : Reg) : Statement (.ldMemVx x) :=
  fun _ => ⟨32, by decide, selects_encodeXSUB _ x _ (by decide), congrArg Instr.ldMemVx (fieldX_encodeXKK _ x _)⟩

theorem ldVxMem (x : Reg) : Statement (.ldVxMem x) :=
  fun _ => ⟨33, by decide, selects_encodeXSUB _ x _ (by decide), congrArg Instr.ldVxMem (fieldX_encodeXKK _ x _)⟩

end Sys2Proof.Laws.EncodesRow
end

