-- ==== Sys2Proof/Safety.lean ====
section
/-! DEFINITION. The terms the claims use: what a safe run is, what an instruction keeps (frames), the invariants of the
machine, and the spec's own listings (illegal words, the pixels of a sprite). -/

namespace Sys2Proof.Machine

/-! ### Safe runs -/

/-- A step is safe if it answers a next state in which no fault is recorded (spec/60_exceptions.md R226: "a faulted state is
never a successful end of a run"). -/
def SafeStep (s : State) : Prop := ∃ t, step s = .next t ∧ t.status = .running

/-- `n` steps from `s` are all safe. -/
def SafeRun : Nat → State → Prop
  | 0, s => s.status = .running
  | n + 1, s => ∃ t, step s = .next t ∧ t.status = .running ∧ SafeRun n t

/-! ### Frames -/

/-- Every general register outside the listed ones reads as before. -/
def RegsKept (changed : List Reg) (s t : State) : Prop := ∀ k, k ∉ changed → t.readV k = s.readV k

/-- Every byte of memory reads as before. -/
def MemKept (s t : State) : Prop := ∀ a, t.readByte a = s.readByte a

/-- Every byte of memory outside the `n` bytes at `addr` reads as before. -/
def MemKeptOutside (addr n : Nat) (s t : State) : Prop :=
  ∀ a, a < addr ∨ addr + n ≤ a → t.readByte a = s.readByte a

/-- Nothing but general registers changed: the listed ones may have, every other field of the state is the same. -/
def OnlyRegs (changed : List Reg) (s t : State) : Prop :=
  RegsKept changed s t ∧ MemKept s t ∧ t = { s with v := t.v }

/-- Nothing but the program counter changed. -/
def OnlyPC (s t : State) : Prop := RegsKept [] s t ∧ MemKept s t ∧ t = { s with pc := t.pc }

/-- Nothing but the index register changed. -/
def OnlyI (s t : State) : Prop := RegsKept [] s t ∧ MemKept s t ∧ t = { s with i := t.i }

/-- The fault record was written and nothing else changed (spec/60_exceptions.md R224). -/
def FaultTaken (cause : FaultCause) (info : Word) (s t : State) : Prop :=
  t = { s with status := .faulted, faultCause := cause, faultInfo := info }

/-! ### Invariants -/

/-- Memory is in its canonical form, with no address outside 0x000 to 0xFFF. -/
def MemCanonical (s : State) : Prop := Memory.wf s.cfg.fontData s.mem = true

/-- While an `Fx0A` waits, `IR` holds an `Fx0A` word, from which the completion takes `x` (spec/44_keys_timers.md R202). -/
def WaitHoldsFx0A (s : State) : Prop := s.waitKey = true → ∃ x, decodeWord s.ir = some (.ldVxK x)

/-- While the sound timer runs the beep output is on (spec/10_state.md R40, spec/44_keys_timers.md R207). -/
def SoundMeansBeep (s : State) : Prop := s.st ≠ 0 → s.beep = true

/-- The machine is faulted exactly when a cause is recorded, and no information stands without one
(spec/10_state.md R39). -/
def FaultRecorded (s : State) : Prop :=
  (s.status = .faulted ↔ s.faultCause ≠ .none) ∧ (s.faultCause = .none → s.faultInfo = 0)

/-- Slot 0 of the call stack still holds its reset value: it is never written (spec/10_state.md R27). -/
def SlotZeroUntouched (s : State) : Prop := s.readStack 0 = 0

/-- Before the first `Cycle` the machine stands at the entry point, with timers and stack as `Reset` left them
(spec/70_reset_and_hazards.md R273). -/
def AtEntryUntilStarted (s : State) : Prop :=
  s.boot ≠ .started →
    s.pc = 0x200 ∧ s.ir = 0 ∧ s.sp = 0 ∧ s.dt = 0 ∧ s.st = 0 ∧ s.waitKey = false ∧ s.status = .running ∧
      (∀ k, s.readV k = 0)

/-! ### The executor -/

/-- The next step is the executor's `Cycle`: nothing is scheduled, and `Status = RUNNING`, `Paused = 0`, `WaitKey = 0`
(spec/30_encoding.md R94) with no load due. -/
def CycleNext (s : State) : Prop :=
  s.schedule = [] ∧ s.status = .running ∧ s.paused = false ∧ s.waitKey = false ∧
    (s.boot = .ready ∨ s.boot = .started)

/-- The word at `PC` and `PC + 1`, big-endian (spec/20_memory.md R66). -/
def State.wordAtPC (s : State) : Word := wordOfBytes (s.readByte s.pc.toNat) (s.readByte (s.pc.toNat + 1))

/-- The transitions the pause gate holds: the cycle loop's and the timer loop's (spec/60_exceptions.md R243). -/
def isOpportunity : Transition → Bool
  | .cycle | .keyWaitComplete | .tick => true
  | _ => false

/-- `n` ticks in a row. -/
def ticks : Nat → State → State
  | 0, s => s
  | n + 1, s => ticks n (tick s)

/-! ### Listings of the spec -/

/-- The illegal words, group by group, as spec/30_encoding.md R97 lists them. -/
def illegalWord (w : Word) : Prop :=
  let op := w.toNat / 4096
  let nnn := w.toNat % 4096
  let kk := w.toNat % 256
  let n := w.toNat % 16
  (op = 0x0 ∧ nnn ∉ [0x0E0, 0x0EE]) ∨
  (op = 0x5 ∧ n ≠ 0) ∨
  (op = 0x8 ∧ n ∈ [0x8, 0x9, 0xA, 0xB, 0xC, 0xD, 0xF]) ∨
  (op = 0x9 ∧ n ≠ 0) ∨
  (op = 0xE ∧ kk ∉ [0x9E, 0xA1]) ∨
  (op = 0xF ∧ kk ∉ [0x07, 0x0A, 0x15, 0x18, 0x1E, 0x29, 0x33, 0x55, 0x65])

/-- Whether the sprite of `n` rows at `I`, drawn from column `vx` and row `vy`, has a set bit on the pixel `(c, r)`: the pixel
lies `b` columns right of and `k` rows below the start, both wrapping, and bit `7 - b` of the byte at `I + k` is set
(spec/43_display.md R192, R193). -/
def spriteCovers (s : State) (vx vy n : Nat) (c : Fin 64) (r : Fin 32) : Prop :=
  ∃ k b : Nat, k < n ∧ b < 8 ∧ (vx + b) % 64 = c.val ∧ (vy + k) % 32 = r.val ∧
    (s.readByte (s.dataAddr + k)).getLsbD (7 - b) = true

/-- The instructions that write VF as a flag on every execution (spec/10_state.md R22). -/
def writesFlag : Instr → Bool
  | .addReg _ _ | .sub _ _ | .shr _ _ | .subn _ _ | .shl _ _ | .drw _ _ _ => true
  | _ => false

/-- The general registers an instruction writes as its destination within its `Cycle` (spec/10_state.md R20). -/
def destinations : Instr → List Reg
  | .ldImm x _ | .addImm x _ | .rnd x _ | .ldVxDt x => [x]
  | .ldReg x _ | .or x _ | .and x _ | .xor x _ => [x]
  | .addReg x _ | .sub x _ | .shr x _ | .subn x _ | .shl x _ => [x]
  | .ldVxMem x => (List.finRange 16).filter (· ≤ x)
  | _ => []

/-- The instructions that write `PC` beyond the advance of fetch: jumps, call, return and skips (the row `PC` of
spec/10_state.md R42). -/
def transfersControl : Instr → Bool
  | .jp _ | .jpV0 _ | .call _ | .ret => true
  | .seImm _ _ | .sneImm _ _ | .seReg _ _ | .sneReg _ _ | .skp _ | .sknp _ => true
  | _ => false

/-- The instructions that may raise a fault at execute (spec/60_exceptions.md R222). -/
def mayFault : Instr → Bool
  | .call _ | .ret | .drw _ _ _ | .ldBVx _ | .ldMemVx _ | .ldVxMem _ | .skp _ | .sknp _ => true
  | _ => false

/-- The instructions that read or write a timer (spec/60_exceptions.md R232). -/
def usesTimer : Instr → Bool
  | .ldVxDt _ | .ldDtVx _ | .ldStVx _ => true
  | _ => false

/-- The instructions that read the key latch within their `Cycle` (spec/10_state.md R34). -/
def readsKeys : Instr → Bool
  | .skp _ | .sknp _ => true
  | _ => false

/-- The outcome with a function applied to its next state. -/
def mapNext (f : State → State) : Host.Outcome State Fault Refusal → Host.Outcome State Fault Refusal
  | .next s => .next (f s)
  | .fault r => .fault r
  | .refused r => .refused r

end Sys2Proof.Machine
end

