-- ==== Sys2Proof/Certificates/Slice0/Obligations.lean ====
section
/-! DEFINITION. The statements for the provers. A statement that rests on one of the spec's own decisions (the D numbers of
spec/92_eei_decisions.md) or derivations, or on a choice of this model, says so in its docstring and has the basis 'derived'. -/

open Sys2Proof Sys2Proof.Machine

/-! ### Encoding -/

/-- Words written out from the patterns of R95 decode to the instructions they stand for, and neighbours of spec/95 part 2.6
are no instructions. -/
def Obligations.SpecWordsDecode : Prop :=
  decode [0x00, 0xEE] = .ok (.ret, []) ∧ decode [0x2A, 0xBC, 0x12] = .ok (.call 0xABC, [0x12]) ∧
  decode [0x3F, 0x01] = .ok (.seImm 15 0x01, []) ∧ decode [0x8A, 0xB7] = .ok (.subn 10 11, []) ∧
  decode [0x81, 0xC6] = .ok (.shr 1 12, []) ∧ decode [0xDA, 0xB2] = .ok (.drw 10 11 2, []) ∧
  decode [0xC1, 0x0F] = .ok (.rnd 1 0x0F, []) ∧ decode [0xF3, 0x65] = .ok (.ldVxMem 3, []) ∧
  decode [0xE3, 0xA1] = .ok (.sknp 3, []) ∧ decode [0x01, 0xE0] = .error (.unknownOpcode 0x01E0) ∧
  decode [0x51, 0x21] = .error (.unknownOpcode 0x5121) ∧ decode [0x81, 0x28] = .error (.unknownOpcode 0x8128) ∧
  decode [0xF1, 0x75] = .error (.unknownOpcode 0xF175) ∧ decode [0x60] = .error .truncated

/-- Decoding the encoding of any well-formed instruction, whatever bytes follow, gives it back with those bytes
(R90, R91, R92, R95). -/
def Obligations.DecodeOfEncodeIsTheInstruction : Prop :=
  ∀ (ins : Instr) (rest : List Byte), ins.WellFormed → decode (encodeBytes ins ++ rest) = .ok (ins, rest)

/-- Whatever decodes is well formed and is exactly the encoding of the decoded instruction: no bit of a legal word is
ignored (R90, R95, R96; the field `y` of the shifts is kept in the instruction). -/
def Obligations.EncodeOfDecodeIsTheBytes : Prop :=
  ∀ (bytes : List Byte) (ins : Instr) (rest : List Byte),
    decode bytes = .ok (ins, rest) → ins.WellFormed ∧ bytes = encodeBytes ins ++ rest

/-- The words that are no instruction are exactly those R97 lists, group by group (derived in the spec from R95; strictness
of decode is the spec's decision D15). -/
def Obligations.IllegalWordsAreThoseListed : Prop :=
  ∀ w : Word, decodeWord w = none ↔ illegalWord w

/-! ### The cycle -/

/-- When the bytes at `PC` decode to an instruction, the step is `exec` of it on the state after fetch: `IR` holds the word,
`PC` is advanced by 2, and the model's own mark says that a `Cycle` was taken; a scheduled transition is taken first, whatever
the state (spec/30_encoding.md section 2, spec/20_memory.md R71; the enabling conditions are the spec's decisions D18 to D20;
the mark and the schedule in the state are the model's, log entries 5 and 10). -/
def Obligations.StepRunsDecodedInstruction : Prop :=
  (∀ (s : State) (ins : Instr) (rest : List Byte), CycleNext s → s.pc.toNat ≤ 0xFFE →
    decode [s.readByte s.pc.toNat, s.readByte (s.pc.toNat + 1)] = .ok (ins, rest) →
    step s = exec ins { s with boot := .started, ir := s.wordAtPC, pc := s.pc + 2 }) ∧
  (∀ (s : State) (t : Transition) (rest : List Transition), s.schedule = t :: rest →
    step s = perform t { s with schedule := rest })

/-- A word that is no instruction raises `UnknownOpcode(IR)`: `PC` has advanced by 2 and is not rolled back, `IR` holds the
word, and no other element of the machine but the fault record changes. A fetch with `PC > 0xFFE` raises `MemoryFault(PC)` and
leaves `PC`, `IR` and all else. In both the model's own mark `boot` says that a `Cycle` was taken (R63, R65, R94, R97, R224;
decisions D10, D11, D15, D18; what makes the `Cycle` the next step is D18 to D20 and the model's schedule, log entry 5; the mark
is the model's, log entry 10; that a fault is a next state is log entry 8). -/
def Obligations.FetchAndDecodeFaultsAreTaken : Prop :=
  (∀ s : State, CycleNext s → s.pc.toNat ≤ 0xFFE → illegalWord s.wordAtPC →
    step s = .next { s with
      boot := .started, ir := s.wordAtPC, pc := s.pc + 2,
      status := .faulted, faultCause := .unknownOpcode, faultInfo := s.wordAtPC }) ∧
  (∀ s : State, CycleNext s → 0xFFE < s.pc.toNat →
    step s = .next { s with
      boot := .started, status := .faulted, faultCause := .memoryFault, faultInfo := s.pc })

/-- While it is paused, faulted or waiting for a key, a `Cycle` changes nothing; while it is paused, faulted, not waiting or
without a key, a `KeyWaitComplete` changes nothing (R94, R203, R226, R252; that such a turn leaves the state alone is the
model's reading of "has no step", log entry 6). -/
def Obligations.HeldExecutorChangesNothing : Prop :=
  (∀ s : State, s.paused = true ∨ s.status = .faulted ∨ s.waitKey = true → perform .cycle s = .next s) ∧
  (∀ s : State, s.paused = true ∨ s.status = .faulted ∨ s.waitKey = false ∨ s.lastKey = none →
    perform .keyWaitComplete s = .next s)

/-- With a key in the slot the waiting executor completes its `Fx0A`: `V[IR[11:8]]` holds the key's number, the slot is empty,
the wait is over, and nothing else changes, `PC` included (R203; the two halves are the spec's decision D20). -/
def Obligations.KeyWaitCompletes : Prop :=
  ∀ (s : State) (k : Key), s.schedule = [] → s.status = .running → s.paused = false → s.waitKey = true →
    s.lastKey = some k →
    ∃ t, step s = .next t ∧
      (∀ x : Reg, x.val = s.ir.toNat / 256 % 16 → (t.readV x).toNat = k.val ∧ RegsKept [x] s t) ∧
      t.lastKey = none ∧ t.waitKey = false ∧ MemKept s t ∧
      t = { s with v := t.v, lastKey := none, waitKey := false }

/-! ### Jumps, calls and skips -/

/-- `1nnn`: `PC <- zext_16(nnn)`, nothing else; placed at its own target it loops with no change but `IR`. `Bnnn`: `PC`
becomes `V[0] + nnn` as a natural number, at most 0x10FE, nothing else; a target above 0xFFE does not fault here but cannot
be fetched from (R121, R124; what lets the step of the loop run is decisions D18 to D20, its mark `boot` is the model's, log
entry 10). -/
def Obligations.JumpsLoadPC : Prop :=
  (∀ nnn : Addr, decodeWord (0x1#4 ++ nnn) = some (.jp nnn) ∧ decodeWord (0xB#4 ++ nnn) = some (.jpV0 nnn)) ∧
  (∀ (nnn : Addr) (s : State), ∃ t, exec (.jp nnn) s = .next t ∧ t.pc.toNat = nnn.toNat ∧ OnlyPC s t) ∧
  (∀ (nnn : Addr) (s : State), CycleNext s → s.pc.toNat = nnn.toNat → s.pc.toNat ≤ 0xFFE →
    s.wordAtPC = 0x1#4 ++ nnn → step s = .next { s with ir := s.wordAtPC, boot := .started }) ∧
  (∀ (nnn : Addr) (s : State), ∃ t, exec (.jpV0 nnn) s = .next t ∧
    t.pc.toNat = (s.readV 0).toNat + nnn.toNat ∧ t.pc.toNat ≤ 0x10FE ∧ OnlyPC s t ∧
    (0xFFE < t.pc.toNat → memRead t t.pc.toNat 2 = none))

/-- `2nnn`: below depth 15 it saves the advanced `PC` in the next slot and jumps; at `SP = 15` it raises `StackFault(IR)` and
changes nothing else (R122; the fault is the spec's decision D4). -/
def Obligations.CallPushesReturnAddress : Prop :=
  (∀ (nnn : Addr) (s : State), s.sp ≠ 15 → ∃ t, exec (.call nnn) s = .next t ∧
    t.sp.val = s.sp.val + 1 ∧ t.readStack t.sp = s.pc ∧ t.pc.toNat = nnn.toNat ∧
    (∀ k, k ≠ t.sp → t.readStack k = s.readStack k) ∧ RegsKept [] s t ∧ MemKept s t ∧
    t = { s with sp := t.sp, stack := t.stack, pc := t.pc }) ∧
  (∀ (nnn : Addr) (s : State), s.sp = 15 → ∃ t, exec (.call nnn) s = .next t ∧ FaultTaken .stackFault s.ir s t)

/-- `00EE`: with a call active it loads `PC` from the top slot and steps `SP` down, leaving every slot as it was; with
`SP = 0` it raises `StackFault(IR)` and changes nothing else (R123; the fault is the spec's decision D4). -/
def Obligations.ReturnPopsReturnAddress : Prop :=
  (∀ s : State, s.sp ≠ 0 → ∃ t, exec .ret s = .next t ∧
    t.pc = s.readStack s.sp ∧ t.sp.val + 1 = s.sp.val ∧ (∀ k, t.readStack k = s.readStack k) ∧
    RegsKept [] s t ∧ MemKept s t ∧ t = { s with sp := t.sp, pc := t.pc }) ∧
  (∀ s : State, s.sp = 0 → ∃ t, exec .ret s = .next t ∧ FaultTaken .stackFault s.ir s t)

/-- A `00EE` on the stack a `2nnn` left returns to the instruction after the call, at the depth before it, whatever the
subroutine did to everything but the stack (R122, R123, R130). -/
def Obligations.ReturnComesBackFromCall : Prop :=
  ∀ (nnn : Addr) (s t u : State), s.sp ≠ 15 → exec (.call nnn) s = .next t → u.sp = t.sp → u.stack = t.stack →
    ∃ r, exec .ret u = .next r ∧ r.pc = s.pc ∧ r.sp = s.sp ∧ r = { u with pc := s.pc, sp := s.sp }

/-- `3xkk` and `4xkk`: skip on equal, skip on not equal to the immediate; a skip adds 2 to the advanced `PC`, and nothing else
changes (R125, R126). -/
def Obligations.SkipOnImmediate : Prop :=
  (∀ (x : Reg) (kk : Byte), decodeWord (0x3#4 ++ BitVec.ofFin (w := 4) x ++ kk) = some (.seImm x kk) ∧
    decodeWord (0x4#4 ++ BitVec.ofFin (w := 4) x ++ kk) = some (.sneImm x kk)) ∧
  (∀ (x : Reg) (kk : Byte) (s : State), ∃ t, exec (.seImm x kk) s = .next t ∧
    t.pc.toNat = (if s.readV x = kk then (s.pc.toNat + 2) % 65536 else s.pc.toNat) ∧ OnlyPC s t) ∧
  (∀ (x : Reg) (kk : Byte) (s : State), ∃ t, exec (.sneImm x kk) s = .next t ∧
    t.pc.toNat = (if s.readV x ≠ kk then (s.pc.toNat + 2) % 65536 else s.pc.toNat) ∧ OnlyPC s t)

/-- `5xy0` and `9xy0`: skip on equal, skip on different registers; with `x = y` the first always skips and the second never
does; a low nibble other than 0 is no instruction; nothing but `PC` changes (R127, R128). -/
def Obligations.SkipOnRegister : Prop :=
  (∀ x y : Reg, decodeWord (0x5#4 ++ BitVec.ofFin (w := 4) x ++ BitVec.ofFin (w := 4) y ++ 0#4) = some (.seReg x y) ∧
    decodeWord (0x9#4 ++ BitVec.ofFin (w := 4) x ++ BitVec.ofFin (w := 4) y ++ 0#4) = some (.sneReg x y)) ∧
  (∀ (x y : Reg) (n : BitVec 4), n ≠ 0 →
    decodeWord (0x5#4 ++ BitVec.ofFin (w := 4) x ++ BitVec.ofFin (w := 4) y ++ n) = none ∧
    decodeWord (0x9#4 ++ BitVec.ofFin (w := 4) x ++ BitVec.ofFin (w := 4) y ++ n) = none) ∧
  (∀ (x y : Reg) (s : State), ∃ t, exec (.seReg x y) s = .next t ∧
    t.pc.toNat = (if s.readV x = s.readV y then (s.pc.toNat + 2) % 65536 else s.pc.toNat) ∧
    (x = y → t.pc.toNat = (s.pc.toNat + 2) % 65536) ∧ OnlyPC s t) ∧
  (∀ (x y : Reg) (s : State), ∃ t, exec (.sneReg x y) s = .next t ∧
    t.pc.toNat = (if s.readV x ≠ s.readV y then (s.pc.toNat + 2) % 65536 else s.pc.toNat) ∧
    (x = y → t.pc = s.pc) ∧ OnlyPC s t)

/-! ### Register load, arithmetic and logic -/

/-- `6xkk` and `8xy0` load `V[x]` with the immediate and with `V[y]`; nothing else changes, VF only as `x = 15`; with
`x = y` the copy changes nothing (R143, R145). -/
def Obligations.LoadAndCopyRegister : Prop :=
  (∀ (x : Reg) (kk : Byte), decodeWord (0x6#4 ++ BitVec.ofFin (w := 4) x ++ kk) = some (.ldImm x kk)) ∧
  (∀ x y : Reg, decodeWord (0x8#4 ++ BitVec.ofFin (w := 4) x ++ BitVec.ofFin (w := 4) y ++ 0#4) = some (.ldReg x y)) ∧
  (∀ (x : Reg) (kk : Byte) (s : State), ∃ t, exec (.ldImm x kk) s = .next t ∧ t.readV x = kk ∧ OnlyRegs [x] s t) ∧
  (∀ (x y : Reg) (s : State), ∃ t, exec (.ldReg x y) s = .next t ∧ t.readV x = s.readV y ∧
    (x = y → t = s) ∧ OnlyRegs [x] s t)

/-- `7xkk` adds modulo 256 and writes no flag: nothing but `V[x]` changes; 0xFF subtracts 1 (R144). -/
def Obligations.AddImmediateWritesNoFlag : Prop :=
  (∀ (x : Reg) (kk : Byte), decodeWord (0x7#4 ++ BitVec.ofFin (w := 4) x ++ kk) = some (.addImm x kk)) ∧
  (∀ (x : Reg) (kk : Byte) (s : State), ∃ t, exec (.addImm x kk) s = .next t ∧
    (t.readV x).toNat = ((s.readV x).toNat + kk.toNat) % 256 ∧
    (kk = 0xFF → t.readV x = s.readV x - 1) ∧
    OnlyRegs [x] s t)

/-- `8xy1`, `8xy2`, `8xy3` are OR, AND and exclusive OR bit by bit; VF is untouched (unless `x = 15`), and nothing but `V[x]`
changes; `x = y` makes the exclusive OR 0 (R146, R147, R148). -/
def Obligations.LogicOperationsLeaveVF : Prop :=
  (∀ x y : Reg,
    decodeWord (0x8#4 ++ BitVec.ofFin (w := 4) x ++ BitVec.ofFin (w := 4) y ++ 1#4) = some (.or x y) ∧
    decodeWord (0x8#4 ++ BitVec.ofFin (w := 4) x ++ BitVec.ofFin (w := 4) y ++ 2#4) = some (.and x y) ∧
    decodeWord (0x8#4 ++ BitVec.ofFin (w := 4) x ++ BitVec.ofFin (w := 4) y ++ 3#4) = some (.xor x y)) ∧
  (∀ (x y : Reg) (s : State), ∃ t, exec (.or x y) s = .next t ∧
    (∀ j, (t.readV x).getLsbD j = ((s.readV x).getLsbD j || (s.readV y).getLsbD j)) ∧ OnlyRegs [x] s t) ∧
  (∀ (x y : Reg) (s : State), ∃ t, exec (.and x y) s = .next t ∧
    (∀ j, (t.readV x).getLsbD j = ((s.readV x).getLsbD j && (s.readV y).getLsbD j)) ∧ OnlyRegs [x] s t) ∧
  (∀ (x y : Reg) (s : State), ∃ t, exec (.xor x y) s = .next t ∧
    (∀ j, (t.readV x).getLsbD j = ((s.readV x).getLsbD j ^^ (s.readV y).getLsbD j)) ∧
    (x = y → t.readV x = 0) ∧ OnlyRegs [x] s t)

/-- `8xy4`: the sum modulo 256 in `V[x]` and the carry in VF, always written, both from the operands' old values; with
`x = 15` VF ends as the carry; nothing else changes (R149; result before flag, which settles `x = 15`, is the spec's decision
D6). -/
def Obligations.AddRegistersCarryIntoVF : Prop :=
  (∀ x y : Reg,
    decodeWord (0x8#4 ++ BitVec.ofFin (w := 4) x ++ BitVec.ofFin (w := 4) y ++ 4#4) = some (.addReg x y)) ∧
  (∀ (x y : Reg) (s : State), ∃ t, exec (.addReg x y) s = .next t ∧
    (x ≠ 15 → (t.readV x).toNat = ((s.readV x).toNat + (s.readV y).toNat) % 256) ∧
    (t.readV 15).toNat = (if (s.readV x).toNat + (s.readV y).toNat > 255 then 1 else 0) ∧
    OnlyRegs [x, 15] s t)

/-- `8xy5` and `8xy7`: the difference modulo 256 in `V[x]` and the not-borrow in VF, 1 at equal operands (R150, R152; equality
is the spec's decision D7, result before flag its decision D6). -/
def Obligations.SubtractionsNotBorrowIntoVF : Prop :=
  (∀ (x y : Reg) (s : State), ∃ t, exec (.sub x y) s = .next t ∧
    (x ≠ 15 → (t.readV x).toNat = ((s.readV x).toNat + 256 - (s.readV y).toNat) % 256) ∧
    (t.readV 15).toNat = (if (s.readV x).toNat ≥ (s.readV y).toNat then 1 else 0) ∧ OnlyRegs [x, 15] s t) ∧
  (∀ (x y : Reg) (s : State), ∃ t, exec (.subn x y) s = .next t ∧
    (x ≠ 15 → (t.readV x).toNat = ((s.readV y).toNat + 256 - (s.readV x).toNat) % 256) ∧
    (t.readV 15).toNat = (if (s.readV y).toNat ≥ (s.readV x).toNat then 1 else 0) ∧ OnlyRegs [x, 15] s t)

/-- `8xy6` and `8xyE` shift `V[x]` by one in place, whatever `y`, and VF takes the bit shifted out (R151, R153; in place is the
spec's decision D5, result before flag its decision D6). -/
def Obligations.ShiftsDropBitIntoVF : Prop :=
  (∀ (x y : Reg) (s : State), ∃ t, exec (.shr x y) s = .next t ∧
    (x ≠ 15 → (t.readV x).toNat = (s.readV x).toNat / 2) ∧
    (t.readV 15).toNat = (s.readV x).toNat % 2 ∧ OnlyRegs [x, 15] s t) ∧
  (∀ (x y : Reg) (s : State), ∃ t, exec (.shl x y) s = .next t ∧
    (x ≠ 15 → (t.readV x).toNat = (s.readV x).toNat * 2 % 256) ∧
    (t.readV 15).toNat = (s.readV x).toNat / 128 ∧ OnlyRegs [x, 15] s t)

/-- `Cxkk` masks the drawn byte, whatever it is: the result has no bit that `kk` lacks, `kk = 0` gives 0, and the next draw is
a fresh one; nothing else changes (R154; the free draw is the spec's decision D17, its counter the model's, log entry 4). -/
def Obligations.RandomByteIsMasked : Prop :=
  ∀ (x : Reg) (kk : Byte) (s : State), ∃ t, exec (.rnd x kk) s = .next t ∧
    t.readV x = Config.randomByte s.draws &&& kk ∧ t.readV x &&& ~~~kk = 0 ∧
    (kk = 0 → t.readV x = 0) ∧ t.draws = s.draws + 1 ∧ RegsKept [x] s t ∧ MemKept s t ∧
    t = { s with v := t.v, draws := t.draws }

/-! ### Index register and memory -/

/-- `Annn` loads `I`, at most 0x0FFF; `Fx1E` adds `V[x]` to `I` modulo 65536 with no flag; nothing else changes (R172, R173). -/
def Obligations.IndexLoadAndAdd : Prop :=
  (∀ nnn : Addr, decodeWord (0xA#4 ++ nnn) = some (.ldI nnn)) ∧
  (∀ x : Reg, decodeWord (0xF#4 ++ BitVec.ofFin (w := 4) x ++ 0x1E#8) = some (.addIVx x)) ∧
  (∀ (nnn : Addr) (s : State), ∃ t, exec (.ldI nnn) s = .next t ∧ t.i.toNat = nnn.toNat ∧ t.i.toNat ≤ 0xFFF ∧
    OnlyI s t) ∧
  (∀ (x : Reg) (s : State), ∃ t, exec (.addIVx x) s = .next t ∧
    t.i.toNat = (s.i.toNat + (s.readV x).toNat) % 65536 ∧ OnlyI s t)

/-- `Fx29` points `I` at 0x050 + 5 V[x], at most 0x54B, with no mask (R174; a value above 15 is the spec's decision D14). -/
def Obligations.GlyphAddressFromRegister : Prop :=
  ∀ (x : Reg) (s : State), ∃ t, exec (.ldFVx x) s = .next t ∧
    t.i.toNat = 0x050 + 5 * (s.readV x).toNat ∧ t.i.toNat ≤ 0x54B ∧ OnlyI s t

/-- `Fx33` stores the hundreds, tens and ones of `V[x]` at `I`, `I + 1`, `I + 2` and changes no other byte, register or field;
with `I + 2 > 0xFFF` it raises `MemoryFault(I)` and stores nothing (R171, R175; the bound is the spec's decision D11). -/
def Obligations.DecimalDigitsAreStored : Prop :=
  (∀ (x : Reg) (s : State), MemCanonical s → s.i.toNat + 2 ≤ 0xFFF → ∃ t, exec (.ldBVx x) s = .next t ∧
    (t.readByte s.i.toNat).toNat = (s.readV x).toNat / 100 ∧
    (t.readByte (s.i.toNat + 1)).toNat = (s.readV x).toNat / 10 % 10 ∧
    (t.readByte (s.i.toNat + 2)).toNat = (s.readV x).toNat % 10 ∧
    MemKeptOutside s.i.toNat 3 s t ∧ RegsKept [] s t ∧ t = { s with mem := t.mem }) ∧
  (∀ (x : Reg) (s : State), 0xFFF < s.i.toNat + 2 → ∃ t, exec (.ldBVx x) s = .next t ∧ FaultTaken .memoryFault s.i s t)

/-- `Fx55` stores `V[0]` to `V[x]` at `I` to `I + x`, changes no other byte, and moves `I` past the block in legacy mode only;
with `I + x > 0xFFF` it raises `MemoryFault(I)` and stores nothing (R171, R176; the bound is the spec's decision D11). -/
def Obligations.RegisterBlockIsStored : Prop :=
  (∀ (x : Reg) (s : State), MemCanonical s → s.i.toNat + x.val ≤ 0xFFF → ∃ t, exec (.ldMemVx x) s = .next t ∧
    (∀ k : Reg, k ≤ x → t.readByte (s.i.toNat + k.val) = s.readV k) ∧
    MemKeptOutside s.i.toNat (x.val + 1) s t ∧
    t.i.toNat = (if s.cfg.legacyIIncrement then (s.i.toNat + x.val + 1) % 65536 else s.i.toNat) ∧
    RegsKept [] s t ∧ t = { s with mem := t.mem, i := t.i }) ∧
  (∀ (x : Reg) (s : State), 0xFFF < s.i.toNat + x.val → ∃ t, exec (.ldMemVx x) s = .next t ∧
    FaultTaken .memoryFault s.i s t)

/-- `Fx65` loads `V[0]` to `V[x]` from `I` to `I + x`, leaves the registers above `x` and all of memory, and moves `I` past the
block in legacy mode only; with `I + x > 0xFFF` it raises `MemoryFault(I)` and loads nothing (R171, R177; the bound is the
spec's decision D11). -/
def Obligations.RegisterBlockIsLoaded : Prop :=
  (∀ (x : Reg) (s : State), s.i.toNat + x.val ≤ 0xFFF → ∃ t, exec (.ldVxMem x) s = .next t ∧
    (∀ k : Reg, k ≤ x → t.readV k = s.readByte (s.i.toNat + k.val)) ∧
    (∀ k : Reg, x < k → t.readV k = s.readV k) ∧
    t.i.toNat = (if s.cfg.legacyIIncrement then (s.i.toNat + x.val + 1) % 65536 else s.i.toNat) ∧
    MemKept s t ∧ t = { s with v := t.v, i := t.i }) ∧
  (∀ (x : Reg) (s : State), 0xFFF < s.i.toNat + x.val → ∃ t, exec (.ldVxMem x) s = .next t ∧
    FaultTaken .memoryFault s.i s t)

/-- Round trip: the registers `Fx55` stored come back with a later `Fx65` at the same address, whatever was done to the
registers in between (R178, derived in the spec from R176 and R177). -/
def Obligations.StoreThenLoadRestoresRegisters : Prop :=
  ∀ (x : Reg) (s t u : State), MemCanonical s → s.i.toNat + x.val ≤ 0xFFF → exec (.ldMemVx x) s = .next t →
    u.mem = t.mem → u.cfg = t.cfg → u.i = s.i →
    ∃ r, exec (.ldVxMem x) u = .next r ∧ (∀ k : Reg, k ≤ x → r.readV k = s.readV k) ∧
      (∀ k : Reg, x < k → r.readV k = u.readV k) ∧
      r.i.toNat = (if s.cfg.legacyIIncrement then (s.i.toNat + x.val + 1) % 65536 else s.i.toNat)

/-! ### Display -/

/-- `00E0`: every pixel off, `Redraw` set on every execution, VF and all else untouched (R191). -/
def Obligations.ClearScreenTurnsPixelsOff : Prop :=
  decodeWord 0x00E0 = some .cls ∧
  (∀ s : State, ∃ t, exec .cls s = .next t ∧ (∀ c r, t.screen.pixel c r = false) ∧ t.redraw = true ∧
    RegsKept [] s t ∧ MemKept s t ∧ t = { s with screen := t.screen, redraw := t.redraw })

/-- `Dxyn` within memory: a pixel is flipped exactly where the sprite, wrapped at both edges, has a set bit; VF is 1 exactly if
a set bit met an on pixel; `Redraw` is set; the coordinates are the registers' values before VF is written; nothing else
changes, `I` and memory included; a sprite of no rows is within memory whatever `I` holds. With `n > 0` and a last row beyond
0xFFF it raises `MemoryFault(I)` before VF, the screen or `Redraw` change (R192, R193; bit 7 leftmost, the sampling of the
coordinates and the bound are the spec's decisions D8, D9, D11). -/
def Obligations.DrawFlipsSpritePixels : Prop :=
  (∀ (x y : Reg) (n : Nat) (s : State), n ≤ 15 → (n = 0 ∨ s.i.toNat + n - 1 ≤ 0xFFF) →
    ∃ t, exec (.drw x y n) s = .next t ∧
      (∀ c r, spriteCovers s (s.readV x).toNat (s.readV y).toNat n c r → t.screen.pixel c r = !(s.screen.pixel c r)) ∧
      (∀ c r, ¬ spriteCovers s (s.readV x).toNat (s.readV y).toNat n c r → t.screen.pixel c r = s.screen.pixel c r) ∧
      ((t.readV 15).toNat = 0 ∨ (t.readV 15).toNat = 1) ∧
      ((t.readV 15).toNat = 1 ↔
        ∃ c r, spriteCovers s (s.readV x).toNat (s.readV y).toNat n c r ∧ s.screen.pixel c r = true) ∧
      t.redraw = true ∧ RegsKept [15] s t ∧ MemKept s t ∧
      t = { s with v := t.v, screen := t.screen, redraw := t.redraw }) ∧
  (∀ (x y : Reg) (n : Nat) (s : State), 0 < n → 0xFFF < s.i.toNat + n - 1 →
    ∃ t, exec (.drw x y n) s = .next t ∧ FaultTaken .memoryFault s.i s t)

/-- Drawing the same sprite at the same place twice restores the screen (R194, derived in the spec); on a cleared screen the
first draw reports no collision and the second does exactly if a row of the sprite has a set bit (R195, derived; bit order
and sampling are the spec's decisions D8 and D9). -/
def Obligations.DrawTwiceRestoresScreen : Prop :=
  ∀ (x y : Reg) (n : Nat) (s t : State), n ≤ 15 → (n = 0 ∨ s.i.toNat + n - 1 ≤ 0xFFF) →
    exec (.drw x y n) s = .next t → t.readV x = s.readV x → t.readV y = s.readV y →
    ∃ u, exec (.drw x y n) t = .next u ∧ u.screen = s.screen ∧
      ((∀ c r, s.screen.pixel c r = false) →
        (t.readV 15).toNat = 0 ∧
        ((u.readV 15).toNat = 1 ↔ ∃ k, k < n ∧ s.readByte (s.i.toNat + k) ≠ 0))

/-! ### Keys and timers -/

/-- `Ex9E` and `ExA1` with `V[x] ≤ 15` skip if that key is down, or up; with a larger value they raise `KeyIndexFault(V[x])`
and change nothing else (R200, R201; the fault is the spec's decision D13). -/
def Obligations.SkipOnKeyState : Prop :=
  (∀ (x : Reg) (k : Key) (s : State), (s.readV x).toNat = k.val → ∃ t, exec (.skp x) s = .next t ∧
    t.pc.toNat = (if s.keys[k] = true then (s.pc.toNat + 2) % 65536 else s.pc.toNat) ∧ OnlyPC s t) ∧
  (∀ (x : Reg) (k : Key) (s : State), (s.readV x).toNat = k.val → ∃ t, exec (.sknp x) s = .next t ∧
    t.pc.toNat = (if s.keys[k] = false then (s.pc.toNat + 2) % 65536 else s.pc.toNat) ∧ OnlyPC s t) ∧
  (∀ (x : Reg) (s : State), 15 < (s.readV x).toNat →
    (∃ t, exec (.skp x) s = .next t ∧ FaultTaken .keyIndexFault t.faultInfo s t ∧
      t.faultInfo.toNat = (s.readV x).toNat) ∧
    (∃ t, exec (.sknp x) s = .next t ∧ FaultTaken .keyIndexFault t.faultInfo s t ∧
      t.faultInfo.toNat = (s.readV x).toNat))

/-- `Fx0A` starts to wait and changes nothing else: not `V[x]`, not the slot, so an earlier key is still delivered
(R202, R204; the two halves are the spec's decision D20). -/
def Obligations.KeyWaitBegins : Prop :=
  ∀ (x : Reg) (s : State), ∃ t, exec (.ldVxK x) s = .next t ∧ t.waitKey = true ∧ t.lastKey = s.lastKey ∧
    RegsKept [] s t ∧ MemKept s t ∧ t = { s with waitKey := t.waitKey }

/-- `Fx07` copies `DT` to `V[x]` and `Fx15` copies `V[x]` to `DT`; nothing else changes; the next `Tick` takes the first
decrement from what `Fx15` wrote (R205, R206). -/
def Obligations.DelayTimerReadAndSet : Prop :=
  (∀ x : Reg, decodeWord (0xF#4 ++ BitVec.ofFin (w := 4) x ++ 0x07#8) = some (.ldVxDt x) ∧
    decodeWord (0xF#4 ++ BitVec.ofFin (w := 4) x ++ 0x15#8) = some (.ldDtVx x)) ∧
  (∀ (x : Reg) (s : State), ∃ t, exec (.ldVxDt x) s = .next t ∧ t.readV x = s.dt ∧ OnlyRegs [x] s t) ∧
  (∀ (x : Reg) (s : State), ∃ t, exec (.ldDtVx x) s = .next t ∧ t.dt = s.readV x ∧ RegsKept [] s t ∧ MemKept s t ∧
    t = { s with dt := t.dt } ∧
    (t.paused = false → ∃ u, perform .tick t = .next u ∧ u.dt.toNat = (s.readV x).toNat - 1))

/-- `Fx18`: `ST <- V[x]`; a value other than 0 sets `Beep` and sends `beep(true)` on every execution; 0 sends nothing and
leaves `Beep`, and then no `Tick` changes the output; nothing else changes (R207; the level `Beep` is the spec's decision D21,
the list of events `beepLog` is the model's, log entry 11). -/
def Obligations.SoundTimerSetStartsBeep : Prop :=
  (∀ x : Reg, decodeWord (0xF#4 ++ BitVec.ofFin (w := 4) x ++ 0x18#8) = some (.ldStVx x)) ∧
  (∀ (x : Reg) (s : State), ∃ t, exec (.ldStVx x) s = .next t ∧ t.st = s.readV x ∧
    (s.readV x ≠ 0 → t.beep = true ∧ t.beepLog = true :: s.beepLog) ∧
    (s.readV x = 0 → t.beep = s.beep ∧ t.beepLog = s.beepLog ∧
      ∃ u, perform .tick t = .next u ∧ u.beep = t.beep ∧ u.beepLog = t.beepLog ∧ u.st = 0) ∧
    RegsKept [] s t ∧ MemKept s t ∧ t = { s with st := t.st, beep := t.beep, beepLog := t.beepLog })

/-! ### Timer subsystem and host -/

/-- `Tick` has no step while paused; else each timer above 0 goes down by one, and `beep(false)` is sent exactly when the
sound timer goes from 1 to 0; nothing else changes, whatever `Status` and `WaitKey` (R240; that a tick without a step leaves
the state alone, and the list of events, are the model's, log entries 6 and 11). -/
def Obligations.TickCountsDown : Prop :=
  ∀ s : State, ∃ t, perform .tick s = .next t ∧ (s.paused = true → t = s) ∧
    (s.paused = false →
      t.st.toNat = s.st.toNat - 1 ∧ t.dt.toNat = s.dt.toNat - 1 ∧
      (s.st.toNat = 1 → t.beep = false ∧ t.beepLog = false :: s.beepLog) ∧
      (s.st.toNat ≠ 1 → t.beep = s.beep ∧ t.beepLog = s.beepLog) ∧
      RegsKept [] s t ∧ MemKept s t ∧
      t = { s with st := t.st, dt := t.dt, beep := t.beep, beepLog := t.beepLog })

/-- After `n` ticks of a machine that is not paused each timer is down by `n`, stopping at 0, and exactly one `beep(false)`
was sent if the sound timer reached 0 on the way (R241, derived in the spec; with `DT = 60`, 60 ticks reach exactly 0; the
list of events is the model's, log entry 11). -/
def Obligations.ManyTicksReachZeroAndStay : Prop :=
  ∀ (n : Nat) (s : State), s.paused = false →
    (ticks n s).dt.toNat = s.dt.toNat - n ∧ (ticks n s).st.toNat = s.st.toNat - n ∧
    (ticks n s).beepLog = (if 0 < s.st.toNat ∧ s.st.toNat ≤ n then false :: s.beepLog else s.beepLog) ∧
    (ticks n s).beep = (if 0 < s.st.toNat ∧ s.st.toNat ≤ n then false else s.beep)

/-- Once paused, any number of cycle and tick opportunities performs no state mutation: only the schedule is used up (R243;
the gate between transitions only is the spec's decision D19, the schedule the model's, log entry 5, as is that a turn
without a step leaves the state alone, log entry 6). -/
def Obligations.PauseHoldsBothLoops : Prop :=
  ∀ (ts rest : List Transition) (s : State), (∀ t ∈ ts, isOpportunity t = true) → s.paused = true →
    s.schedule = ts ++ rest → Host.Core.run core ts.length s = .next { s with schedule := rest }

/-- `Pause` engages the gate and `Resume` releases it; each is idempotent, changes nothing else, and no tick is made up for
the time in between (R243, R244; the gate between transitions only is the spec's decision D19). -/
def Obligations.PauseAndResumeGate : Prop :=
  ∀ s : State, ∃ p r, perform .pause s = .next p ∧ perform .resume p = .next r ∧
    p.paused = true ∧ p = { s with paused := true } ∧ perform .pause p = .next p ∧
    r.paused = false ∧ r = { s with paused := false } ∧ perform .resume r = .next r ∧
    r.dt = s.dt ∧ r.st = s.st

/-- `KeyDown(k)` latches the key and makes it the last one pressed, `KeyUp(k)` releases it and leaves the slot; a number above
15 is rejected and nothing changes; no other key and no other field changes, paused or not (R245, R246; what sets the slot is
the spec's decision D16). -/
def Obligations.KeyEventsLatch : Prop :=
  (∀ (k : Key) (s : State), ∃ t, perform (.keyDown k.val) s = .next t ∧ t.keys[k] = true ∧ t.lastKey = some k ∧
    (∀ j : Key, j ≠ k → t.keys[j] = s.keys[j]) ∧ t = { s with keys := t.keys, lastKey := t.lastKey }) ∧
  (∀ (k : Key) (s : State), ∃ t, perform (.keyUp k.val) s = .next t ∧ t.keys[k] = false ∧ t.lastKey = s.lastKey ∧
    (∀ j : Key, j ≠ k → t.keys[j] = s.keys[j]) ∧ t = { s with keys := t.keys }) ∧
  (∀ (k : Nat) (s : State), 15 < k →
    perform (.keyDown k) s = .next s ∧ reply (.keyDown k) s = .keyRejected ∧
    perform (.keyUp k) s = .next s ∧ reply (.keyUp k) s = .keyRejected)

/-- `ReadScreen` and `Dump` are pure reads: the pixels as bytes 0 or 1 with the redraw signal, and the snapshot of `IR`, the
registers, the stack, `SP`, `I`, `PC` and the timers; neither changes the state (R247, R250). -/
def Obligations.HostReadsArePure : Prop :=
  (∀ s : State, perform .readScreen s = .next s ∧ ∃ px, reply .readScreen s = .screen px s.redraw ∧
    ∀ (c : Fin 64) (r : Fin 32), (px[c][r]).toNat = if s.screen.pixel c r then 1 else 0) ∧
  (∀ s : State, perform .dump s = .next s ∧ ∃ d, reply .dump s = .snapshot d ∧ d.ir = s.ir ∧ d.v = s.v ∧
    d.stack = s.stack ∧ d.sp = s.sp ∧ d.i = s.i ∧ d.pc = s.pc ∧ d.dt = s.dt ∧ d.st = s.st)

/-- `ClearRedraw` clears the redraw flag and nothing else, and a `00E0` or a `Dxyn` that completes after it sets the flag again
(R248). -/
def Obligations.ClearRedrawUntilNextDraw : Prop :=
  ∀ s : State, ∃ t, perform .clearRedraw s = .next t ∧ t.redraw = false ∧ t = { s with redraw := false } ∧
    (∀ u, exec .cls t = .next u → u.redraw = true) ∧
    (∀ (x y : Reg) (n : Nat) (u : State), exec (.drw x y n) t = .next u → u.status = .running → u.redraw = true)

/-- `Reset` gives every element its reset value in every state: `PC = 0x200`, the font at 0x050 to 0x09F and 0 elsewhere, all
registers, slots, pixels, keys, timers and flags 0, `LastKey` empty, RUNNING; it sends no `beep` event (R270; the zeros and
0x200 are the spec's decisions D1 to D3, the kept parameters, draws, schedule and events the model's, log entries 3, 4, 5, 11). -/
def Obligations.ResetRestoresResetValues : Prop :=
  ∀ s : State, ∃ t, perform .reset s = .next t ∧ (∀ x, t.readV x = 0) ∧ t.i = 0 ∧ t.pc = 0x200 ∧
    (∀ k, t.readStack k = 0) ∧ t.sp = 0 ∧ t.dt = 0 ∧ t.st = 0 ∧
    (∀ a : Fin 80, t.readByte (0x050 + a.val) = s.cfg.fontData[a]) ∧
    (∀ a : Nat, a < 0x050 ∨ 0x0A0 ≤ a → t.readByte a = 0) ∧
    (∀ c r, t.screen.pixel c r = false) ∧ t.redraw = false ∧ (∀ k : Key, t.keys[k] = false) ∧ t.lastKey = none ∧
    t.paused = false ∧ t.ir = 0 ∧ t.waitKey = false ∧ t.status = .running ∧ t.faultCause = .none ∧
    t.faultInfo = 0 ∧ t.beep = false ∧ t.beepLog = s.beepLog ∧ t.cfg = s.cfg ∧ t.draws = s.draws ∧
    t.schedule = s.schedule

/-- `LoadRom` before the first `Cycle`: up to 3584 bytes are copied verbatim from 0x200 on, no other byte and no register
changes; after it a `Cycle` has a step where Status, gate and wait allow one, unless a load was rejected and no `Reset` came
since. A longer one is rejected, no byte is written and no element changes, and no `Cycle` has a step after it, nor after a new `Reset` alone: a successful load is then
due. After the first `Cycle` the model refuses (R272; when a load may be called is the spec's decision D27, the mark `boot` and
the refusal are the model's, log entries 9 and 10). -/
def Obligations.LoadRomCopiesOrRejects : Prop :=
  (∀ (bytes : List Byte) (s : State), MemCanonical s → s.boot ≠ .started → bytes.length ≤ 3584 →
    ∃ t, perform (.loadRom bytes) s = .next t ∧ reply (.loadRom bytes) s = .done ∧
      (∀ (k : Nat) (h : k < bytes.length), t.readByte (0x200 + k) = bytes[k]) ∧
      MemKeptOutside 0x200 bytes.length s t ∧ t = { s with mem := t.mem, boot := t.boot } ∧
      (s.boot = .ready ∨ s.boot = .reloadDue → t.boot = .ready ∧
        (s.status = .running → s.paused = false → s.waitKey = false →
          ∃ u, perform .cycle t = .next u ∧ u.boot = .started)) ∧
      (s.boot = .loadFailed → t.boot = .loadFailed ∧ perform .cycle t = .next t)) ∧
  (∀ (bytes : List Byte) (s : State), s.boot ≠ .started → 3584 < bytes.length →
    ∃ t r, perform (.loadRom bytes) s = .next t ∧ reply (.loadRom bytes) s = .romLoadError ∧
      t = { s with boot := .loadFailed } ∧ perform .cycle t = .next t ∧
      perform .reset t = .next r ∧ r.boot = .reloadDue ∧ perform .cycle r = .next r) ∧
  (∀ (bytes : List Byte) (s : State), s.boot = .started →
    perform (.loadRom bytes) s = .refused .loadRomIntoRunningMachine)

/-! ### Invariants that every step keeps -/

/-- Every step keeps memory in its canonical form within 0x000 to 0xFFF (R60, R64, R171; memory as the list of bytes that
differ from reset is the model's, log entry 14). -/
def Obligations.MemoryStaysCanonical : Prop :=
  ∀ s t : State, MemCanonical s → step s = .next t → MemCanonical t

/-- Every step keeps this: while an `Fx0A` waits, `IR` holds its word (R202, R203; the two halves are the spec's decision
D20). -/
def Obligations.WaitingKeepsFx0AInIR : Prop :=
  ∀ s t : State, WaitHoldsFx0A s → step s = .next t → WaitHoldsFx0A t

/-- Every step keeps this: while the sound timer runs, the beep output is on (R207, R240; decision D21). -/
def Obligations.SoundTimerKeepsBeepOn : Prop :=
  ∀ s t : State, SoundMeansBeep s → step s = .next t → SoundMeansBeep t

/-- Every step keeps this: the machine is faulted exactly when a cause is recorded (R39, R224, R226; decision D18). -/
def Obligations.FaultRecordStaysConsistent : Prop :=
  ∀ s t : State, FaultRecorded s → step s = .next t → FaultRecorded t

/-- Every step keeps slot 0 of the call stack at its reset value: no instruction writes it (R27, R122; decisions D3, D4). -/
def Obligations.SlotZeroIsNeverWritten : Prop :=
  ∀ s t : State, SlotZeroUntouched s → step s = .next t → SlotZeroUntouched t

/-- Every step keeps the machine at the entry point until its first `Cycle`, so the first word fetched is the one at 0x200,
whatever ticks and host transitions come before (R273, derived in the spec; the mark `boot` is the model's, log entry 10). -/
def Obligations.EntryPointUntilFirstCycle : Prop :=
  ∀ s t : State, AtEntryUntilStarted s → step s = .next t → AtEntryUntilStarted t

/-- The reset state meets all six invariants, whatever the parameters (R270; decisions D1 to D3). -/
def Obligations.ResetMeetsInvariants : Prop :=
  ∀ cfg : Config, MemCanonical (State.resetWith cfg) ∧ WaitHoldsFx0A (State.resetWith cfg) ∧
    SoundMeansBeep (State.resetWith cfg) ∧ FaultRecorded (State.resetWith cfg) ∧
    SlotZeroUntouched (State.resetWith cfg) ∧ AtEntryUntilStarted (State.resetWith cfg)

/-! ### Rules of the whole machine -/

/-- No step changes `LEGACY_I_INCREMENT` or the font table: they are constant for a run (R5, R7; that they ride in the state is
the model's choice, log entry 3). -/
def Obligations.ParametersAreConstant : Prop :=
  ∀ s t : State, step s = .next t → t.cfg = s.cfg

/-- Every instruction completes in every state: `exec` answers a next state, be it with a fault recorded, and leaves `IR`, the
keys, the last-key slot, the pause gate, the parameters, the schedule and the boot mark alone (R34 to R37, R42, R98, R220; that a
fault is taken as a next state is log entry 8; parameters, schedule and mark are the model's own fields, log entries 3, 5 and
10). -/
def Obligations.EveryInstructionCompletes : Prop :=
  ∀ (ins : Instr) (s : State), ∃ t, exec ins s = .next t ∧ t.ir = s.ir ∧ t.keys = s.keys ∧ t.lastKey = s.lastKey ∧
    t.paused = s.paused ∧ t.cfg = s.cfg ∧ t.schedule = s.schedule ∧ t.boot = s.boot

/-- A fault at execute is precise: only the instructions of R222 raise one, and the faulting one has changed nothing but the
fault record (R222, R224, R225, derived in the spec; decision D18). -/
def Obligations.ExecuteFaultsArePrecise : Prop :=
  ∀ (ins : Instr) (s t : State), s.status = .running → exec ins s = .next t → t.status = .faulted →
    mayFault ins = true ∧ t.faultCause ≠ .none ∧ FaultTaken t.faultCause t.faultInfo s t

/-- Beyond fetch, which loads `IR` and advances `PC`, each element of the machine changes only by the instructions the spec names
as its writers (the table of R42): `PC` by the skips, jumps, call and return only, the fault record by an instruction that may
fault (R222), and the keys, the last-key slot, the pause gate and `IR` by none (the counter of draws and the list of events are
the model's, log entries 4 and 11; the fault record is decision D18, `Beep` D21, the wait D20). -/
def Obligations.OnlyNamedWritersWrite : Prop :=
  ∀ (ins : Instr) (s t : State), exec ins s = .next t →
    (t.v ≠ s.v → destinations ins ≠ [] ∨ writesFlag ins = true) ∧
    (t.pc ≠ s.pc → transfersControl ins = true) ∧
    (t.screen ≠ s.screen ∨ t.redraw ≠ s.redraw → ins = .cls ∨ ∃ x y n, ins = .drw x y n) ∧
    (t.stack ≠ s.stack → ∃ nnn, ins = .call nnn) ∧ (t.sp ≠ s.sp → ins = .ret ∨ ∃ nnn, ins = .call nnn) ∧
    (t.dt ≠ s.dt → ∃ x, ins = .ldDtVx x) ∧
    (t.st ≠ s.st ∨ t.beep ≠ s.beep ∨ t.beepLog ≠ s.beepLog → ∃ x, ins = .ldStVx x) ∧
    (t.waitKey ≠ s.waitKey → ∃ x, ins = .ldVxK x) ∧ (t.draws ≠ s.draws → ∃ x kk, ins = .rnd x kk) ∧
    (t.mem ≠ s.mem → ∃ x, ins = .ldBVx x ∨ ins = .ldMemVx x) ∧
    (t.i ≠ s.i → (∃ nnn, ins = .ldI nnn) ∨ (∃ x, ins = .addIVx x ∨ ins = .ldFVx x) ∨
      (s.cfg.legacyIIncrement = true ∧ ∃ x, ins = .ldMemVx x ∨ ins = .ldVxMem x)) ∧
    (t.status ≠ s.status ∨ t.faultCause ≠ s.faultCause ∨ t.faultInfo ≠ s.faultInfo → mayFault ins = true) ∧
    t.keys = s.keys ∧ t.lastKey = s.lastKey ∧ t.paused = s.paused ∧ t.ir = s.ir

/-- A general register changes only as a destination of the instruction, or as VF by one of the flag-writing instructions of
R22; those, when they do not fault, leave 0 or 1 in VF whatever `x` (R20, R22, R23; result before flag is decision D6). -/
def Obligations.OnlyFlagWritersTouchVF : Prop :=
  ∀ (ins : Instr) (s t : State), exec ins s = .next t →
    (∀ k : Reg, t.readV k ≠ s.readV k → k ∈ destinations ins ∨ (k = 15 ∧ writesFlag ins = true)) ∧
    (s.status = .running → t.status = .running → writesFlag ins = true →
      (t.readV 15).toNat = 0 ∨ (t.readV 15).toNat = 1)

/-- Once FAULTED, every step but a `Reset` leaves the fault record, the registers, the stack, the screen, `IR`, `PC` and the wait
as they are, and with nothing scheduled the machine halts. A scheduled `Tick` still counts both timers down and sends
`beep(false)`, `KeyDown`, `KeyUp`, `Pause`, `Resume` and `ClearRedraw` still act, `ReadScreen` and `Dump` still change nothing, and
`Reset` leads back to RUNNING (R226, R227; decision D18; the outcome `halted`, the schedule and the list of events are the
model's, log entries 7, 5 and 11). -/
def Obligations.FaultIsTerminalUntilReset : Prop :=
  (∀ s t : State, s.status = .faulted → step s = .next t → s.schedule.head? ≠ some .reset →
    t.status = .faulted ∧ t.faultCause = s.faultCause ∧ t.faultInfo = s.faultInfo ∧ t.v = s.v ∧ t.i = s.i ∧
    t.pc = s.pc ∧ t.ir = s.ir ∧ t.sp = s.sp ∧ t.stack = s.stack ∧ t.screen = s.screen ∧ t.waitKey = s.waitKey) ∧
  (∀ s : State, s.status = .faulted → s.schedule = [] → step s = .fault (.halted s.faultCause s.faultInfo)) ∧
  (∀ (s : State) (rest : List Transition), s.status = .faulted → s.paused = false → s.schedule = .tick :: rest →
    ∃ t, step s = .next t ∧ t.schedule = rest ∧ t.dt.toNat = s.dt.toNat - 1 ∧ t.st.toNat = s.st.toNat - 1 ∧
      (s.st.toNat = 1 → t.beep = false ∧ t.beepLog = false :: s.beepLog)) ∧
  (∀ (s : State) (k : Key) (rest : List Transition), s.status = .faulted →
    (s.schedule = .keyDown k.val :: rest → ∃ t, step s = .next t ∧ t.keys[k] = true ∧ t.lastKey = some k) ∧
    (s.schedule = .keyUp k.val :: rest → ∃ t, step s = .next t ∧ t.keys[k] = false ∧ t.lastKey = s.lastKey)) ∧
  (∀ (s : State) (rest : List Transition), s.status = .faulted →
    (s.schedule = .pause :: rest → step s = .next { s with schedule := rest, paused := true }) ∧
    (s.schedule = .resume :: rest → step s = .next { s with schedule := rest, paused := false }) ∧
    (s.schedule = .clearRedraw :: rest → step s = .next { s with schedule := rest, redraw := false }) ∧
    (s.schedule = .readScreen :: rest ∨ s.schedule = .dump :: rest → step s = .next { s with schedule := rest }) ∧
    (s.schedule = .reset :: rest → ∃ t, step s = .next t ∧ t.status = .running ∧ t.faultCause = .none ∧ t.faultInfo = 0))

/-- A step answers anything but a next state in two cases only: a faulted machine with nothing scheduled, and a `LoadRom` into
a running machine (R226, R272; both outcomes are the model's, log entries 7 and 9). -/
def Obligations.StepStopsOnlyWhereNamed : Prop :=
  ∀ s : State, (∃ t, step s = .next t) ∨
    (s.schedule = [] ∧ s.status = .faulted ∧ step s = .fault (.halted s.faultCause s.faultInfo)) ∨
    (s.boot = .started ∧ (∃ bytes, s.schedule.head? = some (.loadRom bytes)) ∧
      step s = .refused .loadRomIntoRunningMachine)

/-- A `Tick` before or after an instruction that uses no timer makes no difference: the program cannot see it (R71, R232,
R240; the timers change between instructions without the program acting, R282). -/
def Obligations.TicksCommuteWithOtherInstructions : Prop :=
  ∀ (ins : Instr) (s : State), usesTimer ins = false → exec ins (tick s) = mapNext tick (exec ins s)

/-- A key event before or after an instruction that does not read the key latch makes no difference: only `Ex9E` and `ExA1` see
it within their `Cycle` (R34, R35, R71). -/
def Obligations.KeyEventsCommuteWithOtherInstructions : Prop :=
  ∀ (ins : Instr) (k : Nat) (s : State), readsKeys ins = false →
    exec ins (keyDown k s) = mapNext (keyDown k) (exec ins s) ∧
    exec ins (keyUp k s) = mapNext (keyUp k) (exec ins s)
end

