-- ==== Sys2Proof/Laws/Display.lean ====
section
/-! SUPPORT. What drawing a sprite does: the draw is one XOR per sprite pixel, the pixels of one sprite are distinct
(spec/43_display.md R194), and so the result and the collision are read off the starting screen. -/

namespace Sys2Proof.Machine

/-- The pixels of a sprite in drawing order: column, row, sprite bit. -/
def spritePixels (vx vy : Nat) : List Byte → List ((Fin 64 × Fin 32) × Bool)
  | [] => []
  | row :: rest =>
    (List.range 8).map (fun b => ((Fin.ofNat 64 (vx + b), Fin.ofNat 32 vy), spriteBit row b)) ++
      spritePixels vx (vy + 1) rest

/-- The draw of a list of pixels, one after another. -/
def blitAll (ps : List ((Fin 64 × Fin 32) × Bool)) (cv : Canvas) : Canvas :=
  ps.foldl (fun acc p => blitPixel p.1.1 p.1.2 p.2 acc) cv

theorem blitRows_eq_blitAll (vx vy : Nat) (rows : List Byte) (cv : Canvas) :
    blitRows vx vy rows cv = blitAll (spritePixels vx vy rows) cv := by
  induction rows generalizing vy cv with
  | nil => rfl
  | cons row rest ih =>
    rw [blitRows, ih, spritePixels, blitAll, blitAll, List.foldl_append, List.foldl_map]
    rfl

theorem pixel_blitPixel (c c' : Fin 64) (r r' : Fin 32) (bit : Bool) (cv : Canvas) :
    (blitPixel c r bit cv).1.pixel c' r' =
      (cv.1.pixel c' r' ^^ (bit && decide ((c', r') = (c, r)))) := by
  rw [blitPixel, Screen.pixel_setPixel]
  by_cases h : c' = c ∧ r' = r
  · obtain ⟨rfl, rfl⟩ := h; simp
  · rw [if_neg h]
    have : ¬ (c', r') = (c, r) := by simpa using h
    simp [this]

/-- Drawing distinct pixels flips exactly those whose sprite bit is set, and collides exactly if one of them was on. -/
theorem blitAll_spec (ps : List ((Fin 64 × Fin 32) × Bool)) (hnd : (ps.map Prod.fst).Nodup) (cv : Canvas) :
    (∀ c r, (blitAll ps cv).1.pixel c r = (cv.1.pixel c r ^^ decide (((c, r), true) ∈ ps))) ∧
    (blitAll ps cv).2 = (cv.2 || ps.any (fun p => p.2 && cv.1.pixel p.1.1 p.1.2)) := by
  induction ps generalizing cv with
  | nil => simp [blitAll]
  | cons p rest ih =>
    obtain ⟨⟨pc, pr⟩, bit⟩ := p
    rw [List.map_cons, List.nodup_cons] at hnd
    obtain ⟨hp, hnd⟩ := hnd
    have hnot : ∀ b, ((pc, pr), b) ∉ rest := fun b hb => hp (List.mem_map.2 ⟨((pc, pr), b), hb, rfl⟩)
    obtain ⟨h1, h2⟩ := ih hnd (blitPixel pc pr bit cv)
    have hstep : blitAll (((pc, pr), bit) :: rest) cv = blitAll rest (blitPixel pc pr bit cv) := rfl
    rw [hstep]
    refine ⟨fun c r => ?_, ?_⟩
    · rw [h1, pixel_blitPixel]
      by_cases h : (c, r) = (pc, pr)
      · obtain ⟨rfl, rfl⟩ := Prod.mk.inj h
        cases bit <;> simp [hnot]
      · have h' : ((c, r), true) ∈ ((pc, pr), bit) :: rest ↔ ((c, r), true) ∈ rest := by
          rw [List.mem_cons]
          exact ⟨fun hm => hm.resolve_left (fun he => h (congrArg Prod.fst he)), .inr⟩
        simp only [h, decide_false, Bool.and_false, Bool.xor_false, h']
    · rw [h2]
      have hrest : rest.any (fun p => p.2 && (blitPixel pc pr bit cv).1.pixel p.1.1 p.1.2) =
          rest.any (fun p => p.2 && cv.1.pixel p.1.1 p.1.2) := by
        rw [Bool.eq_iff_iff, List.any_eq_true, List.any_eq_true]
        refine exists_congr fun q => and_congr_right fun hq => ?_
        have : ¬ (q.1.1, q.1.2) = (pc, pr) := fun he => by
          have : ((pc, pr), q.2) ∈ rest := by rw [← he]; exact hq
          exact hnot _ this
        rw [pixel_blitPixel]
        simp only [this, decide_false, Bool.and_false, Bool.xor_false]
      rw [hrest, List.any_cons]
      simp only [blitPixel, Bool.or_assoc]

theorem mem_spritePixels (vx vy : Nat) (rows : List Byte) (c : Fin 64) (r : Fin 32) (bit : Bool) :
    ((c, r), bit) ∈ spritePixels vx vy rows ↔
      ∃ (k b : Nat) (hk : k < rows.length), b < 8 ∧ (vx + b) % 64 = c.val ∧ (vy + k) % 32 = r.val ∧
        spriteBit rows[k] b = bit := by
  induction rows generalizing vy with
  | nil => simp [spritePixels]
  | cons row rest ih =>
    rw [spritePixels, List.mem_append, ih (vy + 1), List.mem_map]
    constructor
    · rintro (⟨b, hb, he⟩ | ⟨k, b, hk, hb, hc, hr, hbit⟩)
      · rw [List.mem_range] at hb
        simp only [Prod.mk.injEq] at he
        obtain ⟨⟨rfl, rfl⟩, rfl⟩ := he
        exact ⟨0, b, by simp, hb, rfl, rfl, rfl⟩
      · exact ⟨k + 1, b, by simpa using hk, hb, hc, by rw [← hr]; congr 1; omega, by simpa using hbit⟩
    · rintro ⟨k, b, hk, hb, hc, hr, hbit⟩
      cases k with
      | zero =>
        left
        refine ⟨b, List.mem_range.2 hb, ?_⟩
        simp only [Prod.mk.injEq]
        exact ⟨⟨Fin.ext hc, Fin.ext hr⟩, hbit⟩
      | succ k =>
        right
        exact ⟨k, b, by simpa using hk, hb, hc, by rw [← hr]; congr 1; omega, by simpa using hbit⟩

/-- The pixels one draw touches are all distinct (R194). -/
theorem nodup_spritePixels (vx vy : Nat) (rows : List Byte) (h : rows.length ≤ 32) :
    ((spritePixels vx vy rows).map Prod.fst).Nodup := by
  induction rows generalizing vy with
  | nil => simp [spritePixels]
  | cons row rest ih =>
    have hlen : rest.length + 1 ≤ 32 := by simpa using h
    rw [spritePixels, List.map_append, List.nodup_append]
    refine ⟨?_, ih (vy + 1) (by omega), ?_⟩
    · rw [List.map_map]
      refine List.Nodup.map_on ?_ List.nodup_range
      intro a ha b hb he
      rw [List.mem_range] at ha hb
      simp only [Function.comp_apply, Prod.mk.injEq] at he
      have := congrArg Fin.val he.1
      simp only [Fin.val_ofNat] at this
      omega
    · intro p hp q hq he
      subst he
      rw [List.map_map, List.mem_map] at hp
      obtain ⟨b, -, rfl⟩ := hp
      obtain ⟨⟨⟨c, r⟩, bit⟩, hm, he⟩ := List.mem_map.1 hq
      obtain ⟨k, b', hk, -, -, hr, -⟩ := (mem_spritePixels _ _ _ _ _ _).1 hm
      simp only [Function.comp_apply, Prod.mk.injEq] at he
      have := congrArg Fin.val he.2
      simp only [Fin.val_ofNat] at this
      omega

/-- The whole draw: the pixels with a set sprite bit are flipped, and it collides exactly if one of them was on (R193). -/
theorem blitRows_spec (vx vy : Nat) (rows : List Byte) (h : rows.length ≤ 32) (cv : Canvas) :
    (∀ c r, (blitRows vx vy rows cv).1.pixel c r =
      (cv.1.pixel c r ^^ decide (((c, r), true) ∈ spritePixels vx vy rows))) ∧
    (blitRows vx vy rows cv).2 =
      (cv.2 || (spritePixels vx vy rows).any (fun p => p.2 && cv.1.pixel p.1.1 p.1.2)) := by
  rw [blitRows_eq_blitAll]
  exact blitAll_spec _ (nodup_spritePixels vx vy rows h) cv

end Sys2Proof.Machine
end

