-- ==== Sys2Proof/Laws/Exec.lean ====
section
/-! SUPPORT. One equation per instruction: the one next state `exec` answers, as an update of named fields, its fault case
included. `exec_total` says once what any instruction can do. -/

namespace Sys2Proof.Machine

variable (s : State)

/-! ### Control transfer -/

theorem exec_ret : exec .ret s = .next (if s.sp = 0 then raise .stackFault s.ir s
    else { s with pc := s.readStack s.sp, sp := s.sp - 1 }) := by
  simp only [exec, execRet]; split <;> rfl

theorem exec_jp (nnn : Addr) : exec (.jp nnn) s = .next { s with pc := nnn.setWidth 16 } := rfl

theorem exec_call (nnn : Addr) : exec (.call nnn) s = .next (if s.sp = 15 then raise .stackFault s.ir s
    else { s with sp := s.sp + 1, stack := s.stack.set (s.sp + 1 : Slot).val s.pc (s.sp + 1 : Slot).isLt,
                  pc := nnn.setWidth 16 }) := by
  simp only [exec, execCall]; split <;> rfl

theorem exec_jpV0 (nnn : Addr) : exec (.jpV0 nnn) s =
    .next { s with pc := (s.readV 0).setWidth 16 + nnn.setWidth 16 } := rfl

/-- A conditional skip changes nothing but `PC`. -/
theorem skipIf_eq (c : Bool) : skipIf c s = { s with pc := if c then s.pc + 2 else s.pc } := by cases c <;> rfl

theorem exec_seImm (x : Reg) (kk : Byte) : exec (.seImm x kk) s =
    .next { s with pc := if s.readV x = kk then s.pc + 2 else s.pc } := by
  simp [exec, execSeImm, skipIf_eq]

theorem exec_sneImm (x : Reg) (kk : Byte) : exec (.sneImm x kk) s =
    .next { s with pc := if s.readV x ≠ kk then s.pc + 2 else s.pc } := by
  simp [exec, execSneImm, skipIf_eq]

theorem exec_seReg (x y : Reg) : exec (.seReg x y) s =
    .next { s with pc := if s.readV x = s.readV y then s.pc + 2 else s.pc } := by
  simp [exec, execSeReg, skipIf_eq]

theorem exec_sneReg (x y : Reg) : exec (.sneReg x y) s =
    .next { s with pc := if s.readV x ≠ s.readV y then s.pc + 2 else s.pc } := by
  simp [exec, execSneReg, skipIf_eq]

/-! ### Registers -/

theorem exec_ldImm (x : Reg) (kk : Byte) : exec (.ldImm x kk) s = .next (s.writeV x kk) := rfl
theorem exec_addImm (x : Reg) (kk : Byte) : exec (.addImm x kk) s = .next (s.writeV x (sumByte (s.readV x) kk)) := rfl
theorem exec_ldReg (x y : Reg) : exec (.ldReg x y) s = .next (s.writeV x (s.readV y)) := rfl
theorem exec_or (x y : Reg) : exec (.or x y) s = .next (s.writeV x (s.readV x ||| s.readV y)) := rfl
theorem exec_and (x y : Reg) : exec (.and x y) s = .next (s.writeV x (s.readV x &&& s.readV y)) := rfl
theorem exec_xor (x y : Reg) : exec (.xor x y) s = .next (s.writeV x (s.readV x ^^^ s.readV y)) := rfl
theorem exec_addReg (x y : Reg) : exec (.addReg x y) s =
    .next (writeResultFlag x (sumByte (s.readV x) (s.readV y)) (carryOut (s.readV x) (s.readV y)) s) := rfl
theorem exec_sub (x y : Reg) : exec (.sub x y) s =
    .next (writeResultFlag x (diffByte (s.readV x) (s.readV y)) (notBorrow (s.readV x) (s.readV y)) s) := rfl
theorem exec_shr (x y : Reg) : exec (.shr x y) s =
    .next (writeResultFlag x (s.readV x >>> 1) (droppedLow (s.readV x)) s) := rfl
theorem exec_subn (x y : Reg) : exec (.subn x y) s =
    .next (writeResultFlag x (diffByte (s.readV y) (s.readV x)) (notBorrow (s.readV y) (s.readV x)) s) := rfl
theorem exec_shl (x y : Reg) : exec (.shl x y) s =
    .next (writeResultFlag x (s.readV x <<< 1) (droppedHigh (s.readV x)) s) := rfl
theorem exec_rnd (x : Reg) (kk : Byte) : exec (.rnd x kk) s =
    .next { s with v := (s.writeV x (Config.randomByte s.draws &&& kk)).v, draws := s.draws + 1 } := rfl

/-- The result and the flag change nothing but the general registers. -/
theorem writeResultFlag_eq (x : Reg) (r : Byte) (f : Bool) :
    writeResultFlag x r f s = { s with v := (writeResultFlag x r f s).v } := rfl

/-! ### Index register and memory -/

theorem exec_ldI (nnn : Addr) : exec (.ldI nnn) s = .next { s with i := nnn.setWidth 16 } := rfl
theorem exec_addIVx (x : Reg) : exec (.addIVx x) s = .next { s with i := s.i + (s.readV x).setWidth 16 } := rfl
theorem exec_ldFVx (x : Reg) : exec (.ldFVx x) s = .next { s with i := glyphAddr (s.readV x) } := rfl

theorem length_readBlock (x : Reg) : (s.readBlock x).length = x.val + 1 := by simp [State.readBlock, blockLen]

theorem getElem_readBlock (x k : Reg) (h : k.val < (s.readBlock x).length) : (s.readBlock x)[k.val] = s.readV k := by
  simp [State.readBlock]

/-- The legacy adjustment changes nothing but `I`. -/
theorem bumpI_eq (x : Reg) : bumpI x s =
    { s with i := if s.cfg.legacyIIncrement then s.i + BitVec.ofNat 16 (x.val + 1) else s.i } := by
  unfold bumpI blockLen; split <;> simp [State.writeI, *]

theorem exec_ldBVx (x : Reg) : exec (.ldBVx x) s = .next (if s.i.toNat + 2 ≤ 0xFFF
    then { s with mem := Memory.writeList s.cfg.fontData s.mem s.i.toNat (bcdDigits (s.readV x)) }
    else raise .memoryFault s.i s) := by
  have hb : inBounds s.dataAddr (bcdDigits (s.readV x)).length = true ↔ s.i.toNat + 2 ≤ 0xFFF := by
    rw [inBounds_iff]; simp only [bcdDigits, State.dataAddr, List.length_cons, List.length_nil]; omega
  simp only [exec, execLdBVx, memWrite, hb]; split <;> simp_all [State.dataAddr]

theorem exec_ldMemVx (x : Reg) : exec (.ldMemVx x) s = .next (if s.i.toNat + x.val ≤ 0xFFF
    then { s with mem := Memory.writeList s.cfg.fontData s.mem s.i.toNat (s.readBlock x),
                  i := if s.cfg.legacyIIncrement then s.i + BitVec.ofNat 16 (x.val + 1) else s.i }
    else raise .memoryFault s.i s) := by
  have hb : inBounds s.dataAddr (s.readBlock x).length = true ↔ s.i.toNat + x.val ≤ 0xFFF := by
    rw [inBounds_iff, length_readBlock]; simp only [State.dataAddr]; omega
  simp only [exec, execLdMemVx, memWrite, hb]
  by_cases h : s.i.toNat + x.val ≤ 0xFFF
  · simp only [h, if_true, bumpI_eq]; rfl
  · simp only [h, if_false]

theorem exec_ldVxMem (x : Reg) : exec (.ldVxMem x) s = .next (if s.i.toNat + x.val ≤ 0xFFF
    then { s with
      v := (s.writeVs (s.readBytes s.i.toNat (x.val + 1))).v
      i := if s.cfg.legacyIIncrement then s.i + BitVec.ofNat 16 (x.val + 1) else s.i }
    else raise .memoryFault s.i s) := by
  have hb : inBounds s.dataAddr (blockLen x) = true ↔ s.i.toNat + x.val ≤ 0xFFF := by
    rw [inBounds_iff]; simp only [State.dataAddr, blockLen]; omega
  simp only [exec, execLdVxMem, memRead, hb]
  by_cases h : s.i.toNat + x.val ≤ 0xFFF
  · simp only [h, if_true, bumpI_eq]; rfl
  · simp only [h, if_false]

/-! ### Display -/

theorem exec_cls : exec .cls s = .next { s with screen := Screen.clear, redraw := true } := rfl

/-- What a draw leaves on the screen, and whether it met an on pixel. -/
theorem exec_drw (x y : Reg) (n : Nat) : exec (.drw x y n) s = .next (if n = 0 ∨ s.i.toNat + n ≤ 0x1000
    then { s with
      v := (s.writeV 15 (flagByte (blitRows (s.readV x).toNat (s.readV y).toNat (s.readBytes s.i.toNat n)
        (s.screen, false)).2)).v
      screen := (blitRows (s.readV x).toNat (s.readV y).toNat (s.readBytes s.i.toNat n) (s.screen, false)).1
      redraw := true }
    else raise .memoryFault s.i s) := by
  have hb : inBounds s.dataAddr n = true ↔ n = 0 ∨ s.i.toNat + n ≤ 0x1000 := inBounds_iff _ _
  simp only [exec, execDrw, memRead, hb]
  by_cases h : n = 0 ∨ s.i.toNat + n ≤ 0x1000
  · simp only [h, if_true]; rfl
  · simp only [h, if_false]

/-! ### Keys and timers -/

theorem skipIfKey_eq (wanted : Bool) (x : Reg) : skipIfKey wanted x s =
    if h : (s.readV x).toNat < 16
    then { s with pc := if s.keys[(s.readV x).toNat] = wanted then s.pc + 2 else s.pc }
    else raise .keyIndexFault ((s.readV x).setWidth 16) s := by
  unfold skipIfKey; split <;> simp [skipIf_eq, zextByte]

theorem exec_skp (x : Reg) : exec (.skp x) s = .next (skipIfKey true x s) := rfl
theorem exec_sknp (x : Reg) : exec (.sknp x) s = .next (skipIfKey false x s) := rfl
theorem exec_ldVxK (x : Reg) : exec (.ldVxK x) s = .next { s with waitKey := true } := rfl
theorem exec_ldVxDt (x : Reg) : exec (.ldVxDt x) s = .next (s.writeV x s.dt) := rfl
theorem exec_ldDtVx (x : Reg) : exec (.ldDtVx x) s = .next { s with dt := s.readV x } := rfl

theorem exec_ldStVx (x : Reg) : exec (.ldStVx x) s = .next { s with
    st := s.readV x
    beep := if s.readV x = 0 then s.beep else true
    beepLog := if s.readV x = 0 then s.beepLog else true :: s.beepLog } := by
  simp only [exec, execLdStVx]; split <;> rfl

/-! ### All instructions -/

/-- The fields an instruction can write; the others are those of the state before it. -/
def OtherFieldsKept (s t : State) : Prop :=
  t = { s with v := t.v, i := t.i, pc := t.pc, stack := t.stack, sp := t.sp, dt := t.dt, st := t.st, mem := t.mem,
               screen := t.screen, redraw := t.redraw, waitKey := t.waitKey, beep := t.beep, draws := t.draws,
               beepLog := t.beepLog }

/-- Every instruction answers a next state: a fault taken from the state before it, or an update of the fields above. -/
theorem exec_total (ins : Instr) : ∃ t, exec ins s = .next t ∧
    ((∃ cause info, cause ≠ .none ∧ t = raise cause info s) ∨ OtherFieldsKept s t) := by
  cases ins <;> try exact ⟨_, rfl, .inr rfl⟩
  case ret => rw [exec_ret]; split; exacts [⟨_, rfl, .inl ⟨_, _, by decide, rfl⟩⟩, ⟨_, rfl, .inr rfl⟩]
  case call => rw [exec_call]; split; exacts [⟨_, rfl, .inl ⟨_, _, by decide, rfl⟩⟩, ⟨_, rfl, .inr rfl⟩]
  case seImm => exact ⟨_, exec_seImm .., .inr rfl⟩
  case sneImm => exact ⟨_, exec_sneImm .., .inr rfl⟩
  case seReg => exact ⟨_, exec_seReg .., .inr rfl⟩
  case sneReg => exact ⟨_, exec_sneReg .., .inr rfl⟩
  case drw => rw [exec_drw]; split; exacts [⟨_, rfl, .inr rfl⟩, ⟨_, rfl, .inl ⟨_, _, by decide, rfl⟩⟩]
  case skp => rw [exec_skp, skipIfKey_eq]; split; exacts [⟨_, rfl, .inr rfl⟩, ⟨_, rfl, .inl ⟨_, _, by decide, rfl⟩⟩]
  case sknp => rw [exec_sknp, skipIfKey_eq]; split; exacts [⟨_, rfl, .inr rfl⟩, ⟨_, rfl, .inl ⟨_, _, by decide, rfl⟩⟩]
  case ldStVx => exact ⟨_, exec_ldStVx .., .inr rfl⟩
  case ldBVx => rw [exec_ldBVx]; split; exacts [⟨_, rfl, .inr rfl⟩, ⟨_, rfl, .inl ⟨_, _, by decide, rfl⟩⟩]
  case ldMemVx => rw [exec_ldMemVx]; split; exacts [⟨_, rfl, .inr rfl⟩, ⟨_, rfl, .inl ⟨_, _, by decide, rfl⟩⟩]
  case ldVxMem => rw [exec_ldVxMem]; split; exacts [⟨_, rfl, .inr rfl⟩, ⟨_, rfl, .inl ⟨_, _, by decide, rfl⟩⟩]

end Sys2Proof.Machine
end

