-- ==== Sys2Proof/Laws/Step.lean ====
section
/-! SUPPORT. What a step can do, said once: which transition it is, and what a `Cycle` and a `KeyWaitComplete` do. -/

namespace Sys2Proof.Machine

variable {s t : State}

/-- A step that answers a next state is the executor's turn of a running machine or the first scheduled transition. -/
theorem step_cases (h : step s = .next t) :
    (s.schedule = [] ∧ s.status = .running ∧ executorTurn s = .next t) ∨
    (∃ tr rest, s.schedule = tr :: rest ∧ perform tr { s with schedule := rest } = .next t) := by
  unfold step nextTransition at h
  split at h
  · rename_i hs
    unfold unscheduledTurn at h
    split at h
    · rename_i hr; exact .inl ⟨hs, hr, h⟩
    · simp at h
  · rename_i tr rest hs; exact .inr ⟨tr, rest, hs, h⟩

/-- The executor's turn is `KeyWaitComplete` while an `Fx0A` waits, else `Cycle`. -/
theorem executorTurn_cases (h : executorTurn s = .next t) :
    (s.waitKey = true ∧ t = keyWaitComplete s) ∨ (s.waitKey = false ∧ cycle s = .next t) := by
  unfold executorTurn at h
  split at h
  · rename_i hw; left; exact ⟨hw, by cases h; rfl⟩
  · rename_i hw; right; exact ⟨by simpa using hw, h⟩

/-- `KeyWaitComplete` delivers the key in the slot, or changes nothing. -/
theorem keyWaitComplete_cases (s : State) :
    keyWaitComplete s = s ∨
    (∃ k, s.status = .running ∧ s.waitKey = true ∧ s.paused = false ∧ s.lastKey = some k ∧
      keyWaitComplete s = deliverKey k s) := by
  unfold keyWaitComplete State.deliverableKey
  by_cases h : (s.status == .running && s.waitKey && !s.paused) = true
  · rw [if_pos h]
    simp only [Bool.and_eq_true, beq_iff_eq, Bool.not_eq_true'] at h
    cases hk : s.lastKey with
    | none => exact .inl rfl
    | some k => exact .inr ⟨k, h.1.1, h.1.2, h.2, rfl, rfl⟩
  · rw [if_neg h]; exact .inl rfl

theorem cycleEnabled_iff : s.cycleEnabled = true ↔
    s.status = .running ∧ s.paused = false ∧ s.waitKey = false ∧ s.bootAllowsCycle = true := by
  simp only [State.cycleEnabled, Bool.and_eq_true, beq_iff_eq, Bool.not_eq_true', and_assoc]

theorem decode_two (hi lo : Byte) : decode [hi, lo] =
    match decodeWord (wordOfBytes hi lo) with
    | some ins => .ok (ins, [])
    | none => .error (.unknownOpcode (wordOfBytes hi lo)) := rfl

theorem readBytes_two (a : Nat) : s.readBytes a 2 = [s.readByte a, s.readByte (a + 1)] := rfl

/-- An enabled `Cycle` fetches beyond memory, or reads a word that is no instruction, or executes the instruction at `PC`. -/
theorem fetchDecodeExecute_eq (s : State) :
    (0xFFE < s.pc.toNat ∧ fetchDecodeExecute s = .next (raise .memoryFault s.pc s)) ∨
    (s.pc.toNat ≤ 0xFFE ∧
      ∃ w, w = wordOfBytes (s.readByte s.pc.toNat) (s.readByte (s.pc.toNat + 1)) ∧
      ((decodeWord w = none ∧ fetchDecodeExecute s = .next (raise .unknownOpcode w (s.afterFetch w))) ∨
       (∃ ins, decodeWord w = some ins ∧ fetchDecodeExecute s = exec ins (s.afterFetch w)))) := by
  unfold fetchDecodeExecute
  by_cases hpc : s.pc.toNat ≤ 0xFFE
  · right
    refine ⟨hpc, _, rfl, ?_⟩
    have hm : memRead s s.pc.toNat 2 = some [s.readByte s.pc.toNat, s.readByte (s.pc.toNat + 1)] := by
      rw [memRead_eq_some]
      exact ⟨by simp [inBounds, memSize]; omega, rfl⟩
    rw [hm]
    simp only [decode_two, fetchedWord]
    cases hd : decodeWord (wordOfBytes (s.readByte s.pc.toNat) (s.readByte (s.pc.toNat + 1))) with
    | none => left; simp
    | some ins => right; exact ⟨ins, by simp⟩
  · left
    refine ⟨by omega, ?_⟩
    have hm : memRead s s.pc.toNat 2 = none := by
      rw [memRead_eq_none]; simp only [memSize]; omega
    rw [hm]

/-- Everything a `Cycle` can do: nothing while it has no step, a fetch fault, a decode fault, or the instruction at `PC`. -/
theorem cycle_cases (h : cycle s = .next t) :
    t = s ∨
    (s.cycleEnabled = true ∧
      ((0xFFE < s.pc.toNat ∧ t = raise .memoryFault s.pc { s with boot := .started }) ∨
       (∃ w, decodeWord w = none ∧ t = raise .unknownOpcode w (({ s with boot := .started } : State).afterFetch w)) ∨
       (∃ w ins, decodeWord w = some ins ∧ exec ins (({ s with boot := .started } : State).afterFetch w) = .next t))) := by
  unfold cycle at h
  split at h
  · rename_i he
    right
    refine ⟨he, ?_⟩
    rcases fetchDecodeExecute_eq { s with boot := .started } with ⟨hpc, hf⟩ | ⟨-, w, -, ⟨hd, hf⟩ | ⟨ins, hd, hf⟩⟩
    · rw [hf] at h; cases h; exact .inl ⟨hpc, rfl⟩
    · rw [hf] at h; cases h; exact .inr (.inl ⟨w, hd, rfl⟩)
    · rw [hf] at h; exact .inr (.inr ⟨w, ins, hd, h⟩)
  · cases h; exact .inl rfl

/-- What every transition keeps, and the schedule does not bear on, every step keeps. -/
theorem step_keeps {P : State → Prop} (hschedule : ∀ (s : State) (l : List Transition), P s → P { s with schedule := l })
    (hperform : ∀ (tr : Transition) (s t : State), P s → perform tr s = .next t → P t)
    (hs : P s) (h : step s = .next t) : P t := by
  rcases step_cases h with ⟨-, -, he⟩ | ⟨tr, rest, -, hp⟩
  · rcases executorTurn_cases he with ⟨-, rfl⟩ | ⟨-, hc⟩
    · exact hperform .keyWaitComplete _ _ hs rfl
    · exact hperform .cycle _ _ hs hc
  · exact hperform tr _ _ (hschedule _ _ hs) hp

/-- A load of at most 3584 bytes stores them from 0x200 on and changes nothing else but the mark `boot` (R272). -/
theorem loadRom_accepted {bytes : List Byte} (h : bytes.length ≤ 3584) : loadRom bytes s =
    { s with mem := Memory.writeList s.cfg.fontData s.mem 0x200 bytes, boot := bootAfterLoad s.boot } := by
  have h' : ¬ romMax < bytes.length := by unfold romMax memSize programBase; omega
  rw [loadRom, if_neg h', programBase]

/-- A longer load changes nothing but the mark `boot` (R272). -/
theorem loadRom_rejected {bytes : List Byte} (h : 3584 < bytes.length) :
    loadRom bytes s = { s with boot := .loadFailed } := by
  have h' : romMax < bytes.length := by unfold romMax memSize programBase; omega
  rw [loadRom, if_pos h']

/-- Before the first `Cycle` the transition `LoadRom` is the load (R272). -/
theorem loadRomTransition_eq (bytes : List Byte) (h : s.boot ≠ .started) :
    loadRomTransition bytes s = .next (loadRom bytes s) := by
  unfold loadRomTransition
  split <;> simp_all

end Sys2Proof.Machine
end

