-- ==== Sys2Proof/Tests/Slice0.lean ====
section
/-! SUPPORT. The model's own tests. Every expected value comes from spec/95_test_vectors.md (the T, S and P numbers) or from the
example of the rule named, never from the model. -/

namespace Sys2Proof.Tests

open Sys2Proof.Machine

/-! ### Helpers -/

/-- A look at the next state of an outcome. -/
def lookOf {α : Type} (o : Host.Outcome State Fault Refusal) (f : State → α) : Option α :=
  match o with
  | .next t => some (f t)
  | .fault _ => none
  | .refused _ => none

/-- One `Cycle` on the word placed where the next fetch reads, and a look at the state after it. -/
def look {α : Type} (w : Nat) (s : State) (f : State → α) : Option α :=
  lookOf (step (s.withFetchWord 16 w)) f

/-- A look at the state after a transition. -/
def lookAfter {α : Type} (tr : Transition) (s : State) (f : State → α) : Option α :=
  lookOf (perform tr s) f

/-- Reset with `V[1]`, `V[2]` and VF set. -/
def regs (v1 v2 vf : Byte) : State := ((State.reset.writeV 1 v1).writeV 2 v2).writeV 15 vf

/-- The listed bytes stored at an address. -/
def store (s : State) (a : Nat) (bytes : List Byte) : State := (memWrite s a bytes).getD s

/-- The registers the ALU vectors look at. -/
def v1f (t : State) : Byte × Byte := (t.readV 1, t.readV 15)

/-- The fault record. -/
def record (t : State) : Status × Nat × Word × Word := (t.status, t.faultCause.code, t.faultInfo, t.pc)

/-! ### Well-formedness: an ill-formed term for the check, and the largest well-formed one -/

theorem test_wellFormed_refuses_height_16 : ¬ (Instr.drw 0 0 16).WellFormed := by decide
theorem test_wellFormed_accepts_height_15 : (Instr.drw 0 0 15).WellFormed := by decide

/-! ### Decoding: every constructor, by a word written out from the pattern of R95 -/

theorem test_decode_fixed :
    decode [0x00, 0xE0] = .ok (.cls, []) ∧ decode [0x00, 0xEE] = .ok (.ret, []) := by decide

theorem test_decode_nnn :
    decode [0x1A, 0xBC] = .ok (.jp 0xABC, []) ∧ decode [0x23, 0x00] = .ok (.call 0x300, []) ∧
    decode [0xA1, 0x23] = .ok (.ldI 0x123, []) ∧ decode [0xBF, 0xFF] = .ok (.jpV0 0xFFF, []) := by decide

theorem test_decode_xkk :
    decode [0x33, 0x42] = .ok (.seImm 3 0x42, []) ∧ decode [0x4F, 0x01] = .ok (.sneImm 15 0x01, []) ∧
    decode [0x60, 0x05] = .ok (.ldImm 0 0x05, []) ∧ decode [0x71, 0xFF] = .ok (.addImm 1 0xFF, []) ∧
    decode [0xC1, 0x0F] = .ok (.rnd 1 0x0F, []) := by decide

theorem test_decode_xy :
    decode [0x53, 0x40] = .ok (.seReg 3 4, []) ∧ decode [0x93, 0x40] = .ok (.sneReg 3 4, []) ∧
    decode [0xDA, 0xB2] = .ok (.drw 10 11 2, []) := by decide

theorem test_decode_group8 :
    decode [0x81, 0x20] = .ok (.ldReg 1 2, []) ∧ decode [0x81, 0x21] = .ok (.or 1 2, []) ∧
    decode [0x81, 0x22] = .ok (.and 1 2, []) ∧ decode [0x81, 0x23] = .ok (.xor 1 2, []) ∧
    decode [0x81, 0x24] = .ok (.addReg 1 2, []) ∧ decode [0x81, 0x25] = .ok (.sub 1 2, []) ∧
    decode [0x81, 0x26] = .ok (.shr 1 2, []) ∧ decode [0x81, 0x27] = .ok (.subn 1 2, []) ∧
    decode [0x81, 0x2E] = .ok (.shl 1 2, []) := by decide

theorem test_decode_group_ef :
    decode [0xE3, 0x9E] = .ok (.skp 3, []) ∧ decode [0xE3, 0xA1] = .ok (.sknp 3, []) ∧
    decode [0xF1, 0x07] = .ok (.ldVxDt 1, []) ∧ decode [0xF3, 0x0A] = .ok (.ldVxK 3, []) ∧
    decode [0xF0, 0x15] = .ok (.ldDtVx 0, []) ∧ decode [0xF2, 0x18] = .ok (.ldStVx 2, []) := by decide

theorem test_decode_group_f_index :
    decode [0xF1, 0x1E] = .ok (.addIVx 1, []) ∧ decode [0xF0, 0x29] = .ok (.ldFVx 0, []) ∧
    decode [0xF0, 0x33] = .ok (.ldBVx 0, []) ∧ decode [0xF2, 0x55] = .ok (.ldMemVx 2, []) ∧
    decode [0xF2, 0x65] = .ok (.ldVxMem 2, []) := by decide

/-- The illegal neighbours of spec/95 part 2.6. -/
theorem test_decode_illegal_neighbours :
    ([0x0000, 0x00E1, 0x00FE, 0x01E0, 0x0FFF, 0x5121, 0x512F, 0x8128, 0x812D, 0x812F, 0x9121, 0xE100, 0xE19F, 0xE1A0,
      0xF100, 0xF108, 0xF130, 0xF156, 0xF175, 0xF1FF] : List Word).all (fun w => (decodeWord w).isNone) = true := by decide

theorem test_decodeTableWord : decodeTableWord 16 0xDAB2 = some (.drw 10 11 2) ∧ decodeTableWord 16 0x0FEE = none := by
  decide

/-- The patterns of two rows never overlap (R95). -/
theorem test_rows_disjoint : opcodeRows.Pairwise (fun r q => Laws.rowsApart r q = true) := Laws.opcodeRows_disjoint

theorem test_rows_count : opcodeRows.length = 34 := by decide

/-! ### Control flow -/

/-- T100 -/
theorem test_jp : look 0x1ABC State.reset (·.pc) = some 0x0ABC := by decide
/-- T102 -/
theorem test_call : look 0x2300 State.reset (fun t => (t.sp, t.readStack 1, t.readStack 0, t.pc)) =
    some (1, 0x0202, 0, 0x0300) := by decide
/-- T105 -/
theorem test_call_overflow : look 0x2300 { State.reset with sp := 15 } (fun t => (record t, t.sp)) =
    some ((.faulted, 2, 0x2300, 0x0202), 15) := by decide
/-- T103 -/
theorem test_ret : look 0x00EE { pushStack State.reset 0x0456 with pc := 0x200 }
    (fun t => (t.pc, t.sp, t.readStack 1)) = some (0x0456, 0, 0x0456) := by decide
/-- T104 -/
theorem test_ret_underflow : look 0x00EE State.reset (fun t => (record t, t.sp)) =
    some ((.faulted, 2, 0x00EE, 0x0202), 0) := by decide
/-- T107 -/
theorem test_jpV0_not_reduced : look 0xBFFF (State.reset.writeV 0 0xFF) (·.pc) = some 0x10FE := by decide
/-- T108, T109 -/
theorem test_seImm : look 0x3342 (State.reset.writeV 3 0x42) (·.pc) = some 0x0204 ∧
    look 0x3343 (State.reset.writeV 3 0x42) (·.pc) = some 0x0202 := by decide
/-- T118: fetch made it 0x1000, the skip adds 2 -/
theorem test_seImm_at_top : look 0x3100 { State.reset with pc := 0xFFE } (·.pc) = some 0x1002 := by decide
/-- T110, T111 -/
theorem test_sneImm : look 0x4342 (State.reset.writeV 3 0x42) (·.pc) = some 0x0202 ∧
    look 0x4343 (State.reset.writeV 3 0x42) (·.pc) = some 0x0204 := by decide
/-- T113, T114 -/
theorem test_seReg : look 0x5120 (regs 7 8 0) (·.pc) = some 0x0202 ∧ look 0x5330 State.reset (·.pc) = some 0x0204 := by
  decide
/-- T115, T116 -/
theorem test_sneReg : look 0x9120 (regs 7 8 0) (·.pc) = some 0x0204 ∧ look 0x9330 State.reset (·.pc) = some 0x0202 := by
  decide

/-! ### Register ALU -/

/-- T1 -/
theorem test_ldImm : look 0x6155 (regs 0 0 0xAA) v1f = some (0x55, 0xAA) := by decide
/-- T3 -/
theorem test_addImm_wraps : look 0x7101 (regs 0xFF 0 0xAA) v1f = some (0x00, 0xAA) := by decide
/-- T6 -/
theorem test_ldReg : look 0x8120 (regs 0x12 0x34 0xAA) v1f = some (0x34, 0xAA) := by decide
/-- T51 -/
theorem test_ldReg_into_vf : look 0x8F20 (regs 0 5 3) (·.readV 15) = some 5 := by decide
/-- T7 -/
theorem test_or : look 0x8121 (regs 0xF0 0x0F 0xAA) v1f = some (0xFF, 0xAA) := by decide
/-- T8 -/
theorem test_and : look 0x8122 (regs 0xF0 0x3C 0xAA) v1f = some (0x30, 0xAA) := by decide
/-- T9 -/
theorem test_xor : look 0x8123 (regs 0xF0 0x3C 0xAA) v1f = some (0xCC, 0xAA) := by decide
/-- T11, T13: the source's case and the sum 254 -/
theorem test_addReg : look 0x8124 (regs 0xFF 0x01 0xAA) v1f = some (0x00, 1) ∧
    look 0x8124 (regs 0x7F 0x7F 0xAA) v1f = some (0xFE, 0) := by decide
/-- T41, T52: the flag overwrites the result; the old VF is the addend -/
theorem test_addReg_vf : look 0x8F24 (regs 0 5 3) (·.readV 15) = some 0 ∧
    look 0x81F4 (regs 0xFF 0 2) v1f = some (0x01, 1) := by decide
/-- T21, T22: the source's case, and equal operands -/
theorem test_sub : look 0x8125 (regs 0x01 0x02 0xAA) v1f = some (0xFF, 0) ∧
    look 0x8125 (regs 0x80 0x80 0xAA) v1f = some (0x00, 1) := by decide
/-- T42, T54 -/
theorem test_sub_vf : look 0x8F25 (regs 0 5 3) (·.readV 15) = some 0 ∧
    look 0x81F5 (regs 3 0 5) v1f = some (0xFE, 0) := by decide
/-- T31, T35: `V[2]` plays no part -/
theorem test_shr : look 0x8126 (regs 0x05 0x00 0xAA) v1f = some (0x02, 1) ∧
    look 0x8126 (regs 0xFF 0x00 0xAA) v1f = some (0x7F, 1) := by decide
/-- T45 -/
theorem test_shr_vf : look 0x8F26 (regs 0 5 2) (·.readV 15) = some 0 := by decide
/-- T27, T28 -/
theorem test_subn : look 0x8127 (regs 0x02 0x01 0xAA) v1f = some (0xFF, 0) ∧
    look 0x8127 (regs 0x7F 0x7F 0xAA) v1f = some (0x00, 1) := by decide
/-- T55 -/
theorem test_subn_vf : look 0x81F7 (regs 3 0 5) v1f = some (0x02, 1) := by decide
/-- T36, T39 -/
theorem test_shl : look 0x812E (regs 0x81 0x00 0xAA) v1f = some (0x02, 1) ∧
    look 0x812E (regs 0x01 0xFF 0xAA) v1f = some (0x02, 0) := by decide
/-- T48 -/
theorem test_shl_vf : look 0x8F2E (regs 0 0 0x81) (·.readV 15) = some 1 := by decide
/-- R154: for every draw `kk = 0` gives 0 and `kk = 0xFF` the draw, VF untouched -/
theorem test_rnd : exec (.rnd 1 0x00) (regs 5 0 0xAA) = .next ((regs 5 0 0xAA).afterDraw.writeV 1 0) ∧
    look 0xC1FF (regs 5 0 0xAA) v1f = some (Config.randomByte 0, 0xAA) := by
  constructor
  · simp [exec, execRnd]
  · have h : (look 0xC1FF (regs 5 0 0xAA) v1f) = some (Config.randomByte 0 &&& 0xFF#8, 0xAA) := rfl
    rw [h]; congr 2; exact BitVec.and_allOnes

/-! ### Index register and memory -/

/-- T130 -/
theorem test_ldI : look 0xA123 State.reset (·.i) = some 0x0123 := by decide
/-- T132, T134: no flag past 0xFFF, wrap past 0xFFFF -/
theorem test_addIVx : look 0xF21E { regs 0 1 0xAA with i := 0x0FFF } (fun t => (t.i, t.readV 15)) = some (0x1000, 0xAA) ∧
    look 0xF21E { regs 0 0xFF 0xAA with i := 0xFF80 } (·.i) = some 0x007F := by decide
/-- T136, T141 -/
theorem test_ldFVx : look 0xF129 (regs 0x09 0 0) (·.i) = some 0x007D ∧ look 0xF129 (regs 0xFF 0 0) (·.i) = some 0x054B := by
  decide
/-- T156 -/
theorem test_ldBVx : look 0xF133 { regs 0xC7 0 0 with i := 0x300 }
    (fun t => (t.readBytes 0x2FF 5, t.i, t.readV 1)) = some ([0, 1, 9, 9, 0], 0x300, 0xC7) := by decide
/-- T71 -/
theorem test_ldBVx_fault : look 0xF133 { regs 4 0 0 with i := 0xFFE } (fun t => (record t, t.readBytes 0xFFE 2)) =
    some ((.faulted, 3, 0x0FFE, 0x0202), [0, 0]) := by decide
/-- T60, T61: both settings of `LEGACY_I_INCREMENT` -/
theorem test_ldMemVx :
    look 0xF255 { (regs 0x22 0x33 0).writeV 0 0x11 with i := 0x400 } (fun t => (t.readBytes 0x400 4, t.i)) =
      some ([0x11, 0x22, 0x33, 0x00], 0x400) ∧
    look 0xF255 { (regs 0x22 0x33 0).writeV 0 0x11 with i := 0x400, cfg := { Config.default with legacyIIncrement := true } }
      (fun t => (t.readBytes 0x400 4, t.i)) = some ([0x11, 0x22, 0x33, 0x00], 0x403) := by decide
/-- T65: no partial store -/
theorem test_ldMemVx_fault : look 0xF355 { regs 2 3 0 with i := 0xFFD } (fun t => (record t, t.readBytes 0xFFD 3, t.i)) =
    some ((.faulted, 3, 0x0FFD, 0x0202), [0, 0, 0], 0xFFD) := by decide
/-- T63: one byte moved, the registers above kept -/
theorem test_ldVxMem : look 0xF065 { store (regs 0x77 0 0) 0x400 [0x9C] with i := 0x400 }
    (fun t => (t.readV 0, t.readV 1, t.i)) = some (0x9C, 0x77, 0x400) := by decide
/-- T69: `I + x` is not reduced -/
theorem test_ldVxMem_fault : look 0xF165 { regs 2 3 0 with i := 0xFFFE } (fun t => (record t, t.i)) =
    some ((.faulted, 3, 0xFFFE, 0x0202), 0xFFFE) := by decide

/-! ### Display -/

/-- The pixels that are on, as (column, row). -/
def lit (t : State) : List (Fin 64 × Fin 32) :=
  (List.finRange 64).flatMap (fun c => ((List.finRange 32).filter (fun r => t.screen.pixel c r)).map (fun r => (c, r)))

/-- T72 -/
theorem test_cls : look 0x00E0 { regs 0 0 0xAA with screen := Screen.clear.setPixel 3 4 true }
    (fun t => (t.screen.pixel 3 4, t.redraw, t.readV 15)) = some (false, true, 0xAA) := by decide

/-- The sprite of P3, two rows at column 60 and row 31. -/
def sprite : State := { store (regs 60 31 0) 0x300 [0xFF, 0x81] with i := 0x300 }

set_option maxRecDepth 20000 in
/-- P3: both edges wrap. -/
theorem test_drw_wraps : look 0xD122 sprite (fun t => (lit t, t.readV 15, t.redraw)) =
    some ([(0, 31), (1, 31), (2, 31), (3, 0), (3, 31), (60, 0), (60, 31), (61, 31), (62, 31), (63, 31)], 0, true) := by
  decide

/-- T78, T80: the column is the old VF; the check precedes the clear of VF. -/
theorem test_drw_vf : look 0xDF11 { store (regs 0 0 0x0A) 0x300 [0x80] with i := 0x300 }
      (fun t => (t.screen.pixel 10 0, t.readV 15)) = some (true, 0) ∧
    look 0xD125 { regs 0 0 0xAA with i := 0xFFC } (fun t => (record t, t.readV 15, t.redraw)) =
      some ((.faulted, 3, 0x0FFC, 0x0202), 0xAA, false) := by decide

/-! ### Keys and timers -/

/-- T83, T85 -/
theorem test_skp : look 0xE19E (keyDown 15 (regs 0x0F 0 0)) (·.pc) = some 0x0204 ∧
    look 0xE19E (regs 0x0F 0 0) (·.pc) = some 0x0202 := by decide
/-- T87 -/
theorem test_skp_fault : look 0xE19E (regs 0x10 0 0) record = some (.faulted, 4, 0x0010, 0x0202) := by decide
/-- T84, T86 -/
theorem test_sknp : look 0xE1A1 (keyDown 15 (regs 0x0F 0 0)) (·.pc) = some 0x0202 ∧
    look 0xE1A1 (regs 0x0F 0 0) (·.pc) = some 0x0204 := by decide
/-- T88 -/
theorem test_sknp_fault : look 0xE1A1 (regs 0xFF 0 0) record = some (.faulted, 4, 0x00FF, 0x0202) := by decide
/-- P7 step 1 -/
theorem test_ldVxK : look 0xF30A State.reset (fun t => (t.ir, t.pc, t.waitKey, t.readV 3, t.lastKey)) =
    some (0xF30A, 0x0202, true, 0, none) := by decide
/-- P7 step 6 -/
theorem test_keyWaitComplete :
    lookAfter .keyWaitComplete (keyDown 7 { State.reset with waitKey := true, ir := 0xF30A, pc := 0x202 })
      (fun t => (t.readV 3, t.lastKey, t.waitKey, t.pc)) = some (7, none, false, 0x0202) := by decide
/-- T89 -/
theorem test_ldVxDt : look 0xF107 { State.reset with dt := 0x2A } (fun t => (t.readV 1, t.dt)) = some (0x2A, 0x2A) := by
  decide
/-- T91 -/
theorem test_ldDtVx : look 0xF115 (regs 0x2A 0 0) (fun t => (t.dt, t.beep)) = some (0x2A, false) := by decide
/-- R207: a value other than 0 starts the beep, 0 leaves it -/
theorem test_ldStVx : look 0xF118 (regs 5 0 0) (fun t => (t.st, t.beep, t.beepLog)) = some (5, true, [true]) ∧
    look 0xF118 { regs 0 0 0 with st := 5, beep := true } (fun t => (t.st, t.beep, t.beepLog)) = some (0, true, []) := by
  decide
/-- T94: the tick that takes `ST` from 1 to 0, and the one after it -/
theorem test_tick : lookAfter .tick { State.reset with st := 1, dt := 5, beep := true }
      (fun t => (t.st, t.dt, t.beep, t.beepLog)) = some (0, 4, false, [false]) ∧
    lookAfter .tick State.reset (fun t => (t.st, t.dt, t.beepLog)) = some (0, 0, []) := by decide
/-- T92: paused, neither loop has a step -/
theorem test_paused : lookAfter .tick (pause { State.reset with dt := 5 }) (·.dt) = some 5 ∧
    lookAfter .cycle (pause State.reset) (fun t => (t.pc, t.status)) = some (0x200, .running) := by decide
/-- T97, T98 -/
theorem test_keys : keyDown 16 State.reset = State.reset ∧ reply (.keyDown 16) State.reset = .keyRejected ∧
    (keyUp 3 (keyDown 3 State.reset)).lastKey = some 3 ∧ (keyUp 3 (keyDown 3 State.reset)).keys[3] = false := by decide

/-! ### Fetch, reset, load -/

/-- T119, T120: the last legal fetch address, and the first illegal one -/
theorem test_fetch_bounds : look 0x6107 { State.reset with pc := 0xFFE } (fun t => (t.readV 1, t.pc, t.ir)) =
      some (7, 0x1000, 0x6107) ∧
    look 0x6107 { State.reset with pc := 0xFFF } (fun t => (record t, t.ir)) =
      some ((.faulted, 3, 0x0FFF, 0x0FFF), 0) := by decide
/-- P9: an illegal word -/
theorem test_unknown : look 0xFFFF State.reset (fun t => (record t, t.ir)) =
    some ((.faulted, 1, 0xFFFF, 0x0202), 0xFFFF) := by decide
/-- R62: glyphs 0, 9 and F -/
theorem test_font : State.reset.readBytes 0x04F 6 = [0, 0xF0, 0x90, 0x90, 0x90, 0xF0] ∧
    State.reset.readBytes 0x07D 5 = [0xF0, 0x90, 0xF0, 0x10, 0xF0] ∧
    State.reset.readBytes 0x09B 6 = [0xF0, 0x80, 0xF0, 0x80, 0x80, 0] := by decide
/-- S8: the loaded program is what is fetched, big-endian -/
theorem test_loadRom : lookAfter (.loadRom [0x60, 0x05, 0x70, 0x03]) State.reset
    (fun t => (t.wordAtPC, t.readBytes 0x200 5, t.pc)) = some (0x6005, [0x60, 0x05, 0x70, 0x03, 0], 0x200) := by decide

/-! ### Witnesses: a state and operands that meet the hypotheses of each statement, at the values where its clauses meet -/

/-- A state whose `Cycle` fetches the word placed at `PC`. -/
def placed (w : Nat) (s : State) : State := s.withFetchWord 16 w

theorem witness_DecodeOfEncode : (Instr.drw 10 11 15).WellFormed := by decide
theorem witness_EncodeOfDecode : decode [0x8A, 0xB7, 0x12] = .ok (.subn 10 11, [0x12]) := by decide
theorem witness_IllegalWords : illegalWord 0x0000 ∧ illegalWord 0xF1FF ∧ ¬ illegalWord 0x00E0 ∧ ¬ illegalWord 0xF165 := by
  simp [illegalWord]

theorem witness_StepRuns_decoded : CycleNext (placed 0x6107 { State.reset with pc := 0xFFE }) ∧
    (placed 0x6107 { State.reset with pc := 0xFFE }).pc.toNat ≤ 0xFFE ∧
    decode [(placed 0x6107 { State.reset with pc := 0xFFE }).readByte 0xFFE,
      (placed 0x6107 { State.reset with pc := 0xFFE }).readByte 0xFFF] = .ok (.ldImm 1 7, []) :=
  ⟨⟨rfl, rfl, rfl, rfl, .inl rfl⟩, by decide, by decide⟩
theorem witness_StepRuns_scheduled : { State.reset with schedule := [.tick, .dump] }.schedule = .tick :: [.dump] := rfl

theorem witness_FetchFaults_illegal : CycleNext State.reset ∧ State.reset.pc.toNat ≤ 0xFFE ∧
    illegalWord State.reset.wordAtPC :=
  ⟨⟨rfl, rfl, rfl, rfl, .inl rfl⟩, by decide, by rw [show State.reset.wordAtPC = 0 by decide]; simp [illegalWord]⟩
theorem witness_FetchFaults_bound : CycleNext { State.reset with pc := 0xFFF, boot := .started } ∧
    0xFFE < { State.reset with pc := 0xFFF }.pc.toNat := ⟨⟨rfl, rfl, rfl, rfl, .inr rfl⟩, by decide⟩

/-- A machine halfway through `F30A`, with key 7 in the slot. -/
def waiting : State := keyDown 7 { State.reset with waitKey := true, ir := 0xF30A, pc := 0x202, boot := .started }

theorem witness_HeldExecutor : (pause State.reset).paused = true ∧ (raise .stackFault 0 State.reset).status = .faulted ∧
    waiting.waitKey = true ∧ State.reset.waitKey = false ∧ State.reset.lastKey = none := by decide
theorem witness_KeyWaitCompletes : waiting.schedule = [] ∧ waiting.status = .running ∧ waiting.paused = false ∧
    waiting.waitKey = true ∧ waiting.lastKey = some 7 ∧ (3 : Reg).val = waiting.ir.toNat / 256 % 16 := by decide

theorem witness_Jumps_self : CycleNext (placed 0x1200 State.reset) ∧ (placed 0x1200 State.reset).pc.toNat = (0x200 : Addr).toNat ∧
    (placed 0x1200 State.reset).pc.toNat ≤ 0xFFE ∧ (placed 0x1200 State.reset).wordAtPC = 0x1#4 ++ (0x200 : Addr) :=
  ⟨⟨rfl, rfl, rfl, rfl, .inl rfl⟩, by decide, by decide, by decide⟩
theorem witness_Jumps_beyond : (lookOf (exec (.jpV0 0xFFF) State.reset) (fun t => decide (0xFFE < t.pc.toNat))) = some true ∧
    (lookOf (exec (.jpV0 0xFFE) State.reset) (fun t => decide (0xFFE < t.pc.toNat))) = some false := by decide
theorem witness_Call : { State.reset with sp := 14 }.sp ≠ 15 ∧ { State.reset with sp := 15 }.sp = 15 := by decide
theorem witness_Return : { State.reset with sp := 1 }.sp ≠ 0 ∧ State.reset.sp = 0 := by decide
theorem witness_ReturnComesBack : ∃ t u : State, State.reset.sp ≠ 15 ∧ exec (.call 0x300) State.reset = .next t ∧ u.sp = t.sp ∧
    u.stack = t.stack ∧ u.pc ≠ t.pc :=
  ⟨(pushStack State.reset 0x200).writePC 0x300, (pushStack State.reset 0x200).writePC 0x308, by decide, rfl, rfl, rfl, by decide⟩

theorem witness_SkipOnRegister : (15 : BitVec 4) ≠ 0 ∧ (0 : Reg) = 0 := by decide
theorem witness_Flags : (14 : Reg) ≠ 15 := by decide
theorem witness_DecimalDigits : MemCanonical { State.reset with i := 0xFFD } ∧
    { State.reset with i := 0xFFD }.i.toNat + 2 ≤ 0xFFF ∧ 0xFFF < { State.reset with i := 0xFFE }.i.toNat + 2 :=
  ⟨rfl, by decide, by decide⟩
theorem witness_RegisterBlock : MemCanonical { State.reset with i := 0xFF0 } ∧
    { State.reset with i := 0xFF0 }.i.toNat + (15 : Reg).val ≤ 0xFFF ∧
    0xFFF < { State.reset with i := 0xFF1 }.i.toNat + (15 : Reg).val ∧ 0xFFF < { State.reset with i := 0x1000 }.i.toNat + (0 : Reg).val :=
  ⟨rfl, by decide, by decide, by decide⟩
theorem witness_StoreThenLoad : ∃ t u : State, MemCanonical { regs 2 3 0 with i := 0x400 } ∧
    exec (.ldMemVx 2) { regs 2 3 0 with i := 0x400 } = .next t ∧ u.mem = t.mem ∧ u.cfg = t.cfg ∧ u.i = 0x400 ∧ u.readV 1 = 9 :=
  ⟨store { regs 2 3 0 with i := 0x400 } 0x400 [0, 2, 3], store { regs 9 9 0 with i := 0x400 } 0x400 [0, 2, 3],
    rfl, rfl, rfl, rfl, rfl, rfl⟩

theorem witness_Draw_bounds : { State.reset with i := 0xFF1 }.i.toNat + 15 - 1 ≤ 0xFFF ∧
    0xFFF < { State.reset with i := 0xFF2 }.i.toNat + 15 - 1 ∧ 0xFFF < { State.reset with i := 0x1000 }.i.toNat + 1 - 1 := by
  decide
theorem witness_Draw_covers : spriteCovers sprite 60 31 2 3 0 ∧ ¬ spriteCovers sprite 60 31 2 5 0 := by
  constructor
  · exact ⟨1, 7, by decide, by decide, by decide, by decide, by decide⟩
  · rintro ⟨k, b, hk, hb, hc, -⟩
    have : ((5 : Fin 64) : Nat) = 5 := rfl
    omega
set_option maxRecDepth 20000 in
theorem witness_DrawTwice : ∃ t, exec (.drw 1 2 2) sprite = .next t ∧ t.readV 1 = sprite.readV 1 ∧
    t.readV 2 = sprite.readV 2 ∧ sprite.i.toNat + 2 - 1 ≤ 0xFFF ∧ (∀ c r, sprite.screen.pixel c r = false) ∧
    sprite.readByte (sprite.i.toNat + 1) ≠ 0 :=
  ⟨_, rfl, rfl, rfl, by decide, fun c r => Screen.pixel_clear c r, by decide⟩

theorem witness_SkipOnKey : ((regs 15 0 0).readV 1).toNat = (15 : Key).val ∧ 15 < ((regs 16 0 0).readV 1).toNat ∧
    (keyDown 15 (regs 15 0 0)).keys[(15 : Key)] = true ∧ (regs 15 0 0).keys[(15 : Key)] = false := by decide
theorem witness_Timers : State.reset.paused = false ∧ (regs 255 0 0).readV 1 ≠ 0 ∧ (regs 0 0 0).readV 1 = 0 ∧
    (pause State.reset).paused = true ∧ { State.reset with st := 1 }.st.toNat = 1 := by decide
theorem witness_ManyTicks : State.reset.paused = false ∧ 0 < { State.reset with st := 255 }.st.toNat ∧
    { State.reset with st := 255 }.st.toNat ≤ 255 := by decide
theorem witness_PauseHolds : (∀ t ∈ [Transition.cycle, .tick, .keyWaitComplete], isOpportunity t = true) ∧
    (pause { State.reset with schedule := [.cycle, .tick, .keyWaitComplete] ++ [.resume] }).paused = true := by decide
theorem witness_KeyEvents : 15 < 16 ∧ (14 : Key) ≠ 15 := by decide
theorem witness_ClearRedraw : lookOf (exec (.drw 1 2 2) (clearRedraw sprite)) (·.status) = some .running ∧
    lookOf (exec .cls (clearRedraw sprite)) (·.redraw) = some true := by decide
theorem witness_LoadRom : MemCanonical State.reset ∧ State.reset.boot = .ready ∧
    (List.replicate 3584 (0xFF : Byte)).length ≤ 3584 ∧ 3584 < (List.replicate 3585 (0xFF : Byte)).length ∧
    { State.reset with boot := .started }.boot = .started :=
  ⟨rfl, rfl, by rw [List.length_replicate], by rw [List.length_replicate]; decide, rfl⟩
/-- A load rejected, and the `Reset` after it. -/
def afterRejected : State := { State.reset with boot := .loadFailed }

theorem witness_LoadRom_due : MemCanonical (reset afterRejected) ∧ (reset afterRejected).boot = .reloadDue ∧
    (reset afterRejected).status = .running ∧ (reset afterRejected).paused = false ∧ (reset afterRejected).waitKey = false ∧
    MemCanonical afterRejected ∧ afterRejected.boot = .loadFailed ∧ ([0x60, 0x05] : List Byte).length ≤ 3584 :=
  ⟨rfl, rfl, rfl, rfl, rfl, rfl, rfl, by decide⟩
theorem witness_Reset : (0x04F < 0x050 ∨ 0x0A0 ≤ 0x04F) ∧ (0x0A0 < 0x050 ∨ 0x0A0 ≤ 0x0A0) := by decide

theorem witness_MemoryStaysCanonical : MemCanonical (placed 0xF033 { State.reset with i := 0x300 }) ∧
    lookOf (step (placed 0xF033 { State.reset with i := 0x300 })) (·.readByte 0x300) = some 0 := ⟨rfl, by decide⟩
theorem witness_WaitingKeepsFx0A : WaitHoldsFx0A waiting ∧ waiting.waitKey = true ∧
    lookOf (step { waiting with schedule := [.tick] }) (·.waitKey) = some true :=
  ⟨fun _ => ⟨3, by decide⟩, by decide, by decide⟩
theorem witness_SoundTimer : SoundMeansBeep { State.reset with st := 2, beep := true, schedule := [.tick] } ∧
    lookOf (step { State.reset with st := 2, beep := true, schedule := [.tick] }) (·.st) = some 1 := ⟨fun _ => rfl, by decide⟩
theorem witness_FaultRecord : FaultRecorded (raise .stackFault 0x00EE State.reset) ∧ FaultRecorded State.reset ∧
    lookOf (step { raise .stackFault 0x00EE State.reset with schedule := [.tick] }) (·.faultInfo) = some 0x00EE := by
  unfold FaultRecorded; decide
theorem witness_SlotZero : SlotZeroUntouched (placed 0x2300 State.reset) ∧
    lookOf (step (placed 0x2300 State.reset)) (·.sp) = some 1 := ⟨rfl, by decide⟩
theorem witness_EntryPoint : AtEntryUntilStarted { State.reset with schedule := [.tick] } ∧ State.reset.boot ≠ .started ∧
    lookOf (step { State.reset with schedule := [.tick] }) (·.boot) = some .ready := by
  unfold AtEntryUntilStarted; decide
theorem witness_Parameters : lookOf (step State.reset) (·.cfg) = some Config.default := by decide

theorem witness_ExecuteFaults : State.reset.status = .running ∧ lookOf (exec .ret State.reset) (·.status) = some .faulted := by
  decide
theorem witness_Writers : lookOf (exec .cls State.reset) (·.redraw) = some true ∧
    lookOf (exec (.call 0x300) State.reset) (fun t => (t.readStack 1, t.sp)) = some (0x200, 1) ∧
    lookOf (exec (.ldDtVx 1) (regs 5 0 0)) (·.dt) = some 5 ∧ lookOf (exec (.ldStVx 1) (regs 5 0 0)) (·.st) = some 5 ∧
    lookOf (exec (.ldVxK 1) State.reset) (·.waitKey) = some true ∧ lookOf (exec (.rnd 1 0) State.reset) (·.draws) = some 1 ∧
    lookOf (exec (.ldMemVx 1) { regs 5 0 0 with i := 0x300 }) (fun t => decide (t.mem = [])) = some false ∧
    lookOf (exec (.ldVxMem 0) { State.reset with i := 0x300, cfg := { Config.default with legacyIIncrement := true } }) (·.i) =
      some 0x301 := by decide
theorem witness_Writers_pc : lookOf (exec (.skp 1) (keyDown 5 (regs 5 0 0))) (·.pc) = some 0x202 ∧
    lookOf (exec (.ldImm 1 7) State.reset) (·.readV 1) = some 7 ∧
    lookOf (exec .ret State.reset) (fun t => (t.status, t.faultCause)) = some (.faulted, .stackFault) := by decide
theorem witness_FlagWriters : writesFlag (.shl 1 0) = true ∧
    lookOf (exec (.shl 1 0) (regs 0x81 0 0)) (fun t => (t.readV 15, t.status)) = some (1, .running) := by decide
theorem witness_FaultIsTerminal : (raise .stackFault 0 State.reset).status = .faulted ∧
    (raise .stackFault 0 State.reset).schedule = [] ∧ [Transition.tick].head? ≠ some .reset ∧
    lookOf (step { raise .stackFault 0 State.reset with schedule := [.tick], dt := 3 }) (·.dt) = some 2 := by decide
/-- A faulted machine with a transition scheduled. -/
def faulted (tr : Transition) : State := { raise .stackFault 0x00EE State.reset with schedule := [tr], st := 1 }

theorem witness_FaultIsTerminal_hosts : (faulted .tick).status = .faulted ∧ (faulted .tick).paused = false ∧
    (faulted .tick).schedule = .tick :: [] ∧ (faulted .tick).st.toNat = 1 ∧
    (faulted (.keyDown 15)).schedule = .keyDown (15 : Key).val :: [] ∧
    (faulted (.keyUp 15)).schedule = .keyUp (15 : Key).val :: [] ∧ (faulted .pause).schedule = .pause :: [] ∧
    (faulted .resume).schedule = .resume :: [] ∧ (faulted .clearRedraw).schedule = .clearRedraw :: [] ∧
    (faulted .readScreen).schedule = .readScreen :: [] ∧ (faulted .dump).schedule = .dump :: [] ∧
    (faulted .reset).schedule = .reset :: [] := by decide
theorem witness_Commute : usesTimer (.drw 1 2 3) = false ∧ readsKeys (.ldVxK 1) = false := by decide

end Sys2Proof.Tests
end

section
/-! PROOF. The four skips that compare a register (spec/40_flow.md R120, R125 to R128): how a word decodes by its
row or by none, what a conditional skip does to the state, and obligations O13 and O14 from these. -/

namespace Sys2Proof.Laws

/-- The encoding of a well-formed instruction with the row property of `EncodesRow` decodes to that instruction. -/
theorem decodeWord_encode_of_encodesRow {ins : Instr} (hrow : EncodesRow.Statement ins) (hwf : ins.WellFormed) :
    decodeWord (encode ins) = some ins := by
  obtain ⟨k, hk, hselects, hbuild⟩ := hrow hwf
  rw [decodeWord_of_selects k hk hselects, hbuild]

/-- A word of a pattern that is apart from every row of the map is no instruction. -/
theorem decodeWord_eq_none_of_apart {q : OpcodeRow} {w : Word} (hq : q.selects w = true)
    (hapart : ∀ r ∈ opcodeRows, rowsApart q r = true) : decodeWord w = none := by
  have hfind : opcodeRows.find? (fun r => r.selects w) = none :=
    List.find?_eq_none.2 fun r hr => by simp [not_selects_of_apart (hapart r hr) hq]
  rw [decodeWord, hfind, Option.map_none]

/-- The words of format `XYN` with the given first and last nibble, as a row; what it builds plays no part. -/
def patternXYN (op n : BitVec 4) : OpcodeRow := ⟨encodeXYN op 0 0 n, 0xF00F, fun _ => .cls⟩

theorem patternXYN_selects (op n : BitVec 4) (x y : Reg) : (patternXYN op n).selects (encodeXYN op x y n) = true :=
  selects_encodeXYN op n x y rfl

/-- No row of the map meets the words `5xyn` with `n` other than 0 (R127). -/
theorem pattern5xyn_apart : ∀ n : BitVec 4, n ≠ 0 → ∀ r ∈ opcodeRows, rowsApart (patternXYN 0x5 n) r = true := by decide

/-- No row of the map meets the words `9xyn` with `n` other than 0 (R128). -/
theorem pattern9xyn_apart : ∀ n : BitVec 4, n ≠ 0 → ∀ r ∈ opcodeRows, rowsApart (patternXYN 0x9 n) r = true := by decide

end Sys2Proof.Laws

namespace Sys2Proof.Machine

theorem onlyPC_setPC (s : State) (w : Word) : OnlyPC s { s with pc := w } :=
  ⟨fun _ _ => rfl, fun _ => rfl, rfl⟩

/-- The `PC` of a conditional skip as a number, with the wrap-around of R120. -/
theorem toNat_skipTarget (pc : Word) (c : Prop) [Decidable c] :
    (if c then pc + 2 else pc).toNat = if c then (pc.toNat + 2) % 65536 else pc.toNat := by
  split
  · exact BitVec.toNat_add pc 2
  · rfl

/-- An instruction whose meaning is a conditional skip answers a state with that `PC` and nothing else changed. -/
theorem exec_skip_spec {ins : Instr} {s : State} {c : Prop} [Decidable c]
    (hskip : exec ins s = .next { s with pc := if c then s.pc + 2 else s.pc }) :
    ∃ t, exec ins s = .next t ∧ t.pc.toNat = (if c then (s.pc.toNat + 2) % 65536 else s.pc.toNat) ∧ OnlyPC s t :=
  ⟨_, hskip, toNat_skipTarget s.pc c, onlyPC_setPC s _⟩

end Sys2Proof.Machine

namespace Sys2Proof.Proofs

open Sys2Proof.Machine Sys2Proof.Laws

/-- Settles O13: the words select their rows, and both meanings are conditional skips. -/
theorem skipOnImmediate : Obligations.SkipOnImmediate :=
  ⟨fun x kk => ⟨decodeWord_encode_of_encodesRow (EncodesRow.seImm x kk) rfl,
      decodeWord_encode_of_encodesRow (EncodesRow.sneImm x kk) rfl⟩,
    fun x kk s => exec_skip_spec (exec_seImm s x kk),
    fun x kk s => exec_skip_spec (exec_sneImm s x kk)⟩

/-- Settles O14: as O13, with a last nibble other than 0 apart from every row, and with the condition decided where both
operands are one register. -/
theorem skipOnRegister : Obligations.SkipOnRegister := by
  refine ⟨fun x y => ⟨decodeWord_encode_of_encodesRow (EncodesRow.seReg x y) rfl,
      decodeWord_encode_of_encodesRow (EncodesRow.sneReg x y) rfl⟩,
    fun x y n hn => ⟨decodeWord_eq_none_of_apart (patternXYN_selects 0x5 n x y) (pattern5xyn_apart n hn),
      decodeWord_eq_none_of_apart (patternXYN_selects 0x9 n x y) (pattern9xyn_apart n hn)⟩,
    fun x y s => ?_, fun x y s => ?_⟩
  · obtain ⟨t, hexec, hpc, honly⟩ := exec_skip_spec (exec_seReg s x y)
    have hself : x = y → t.pc.toNat = (s.pc.toNat + 2) % 65536 := by
      rintro rfl
      rwa [if_pos rfl] at hpc
    exact ⟨t, hexec, hpc, hself, honly⟩
  · obtain ⟨t, hexec, hpc, honly⟩ := exec_skip_spec (exec_sneReg s x y)
    have hself : x = y → t.pc = s.pc := by
      rintro rfl
      rw [if_neg (not_not_intro rfl)] at hpc
      exact BitVec.eq_of_toNat_eq hpc
    exact ⟨t, hexec, hpc, hself, honly⟩

end Sys2Proof.Proofs
end

section
/-! PROOF. The instructions that write one general register and no flag (spec/41_alu.md R143 to R148): what a single
register write leaves unchanged, the value each writes, and obligations O15 to O17 from these. -/

namespace Sys2Proof.Laws

/-- A word written out from a pattern of R95 decodes to the well-formed instruction that it encodes. -/
theorem decodeWord_eq_some_of_encode_eq {ins : Instr} {w : Word} (hrow : EncodesRow.Statement ins)
    (hwf : ins.WellFormed) (hword : encode ins = w) : decodeWord w = some ins :=
  hword ▸ decodeWord_encode_of_encodesRow hrow hwf

end Sys2Proof.Laws

namespace Sys2Proof.Machine

theorem onlyRegs_writeV (s : State) (x : Reg) (b : Byte) : OnlyRegs [x] s (s.writeV x b) :=
  ⟨fun _ hk => State.readV_writeV_other b (List.ne_of_not_mem_cons hk), fun _ => rfl, rfl⟩

theorem writeV_readV_self (s : State) (x : Reg) : s.writeV x (s.readV x) = s := by
  have hv : s.v.set x (s.readV x) = s.v := Vector.set_getElem_self x.isLt
  rw [State.writeV, hv]

/-- An instruction whose meaning is one register write answers a state that reads so and has nothing else changed. -/
theorem exec_writeV_spec {ins : Instr} {s : State} {x : Reg} {b : Byte} (hwrite : exec ins s = .next (s.writeV x b)) :
    ∃ t, exec ins s = .next t ∧ t.readV x = b ∧ OnlyRegs [x] s t :=
  ⟨_, hwrite, State.readV_writeV_same x b, onlyRegs_writeV s x b⟩

theorem sumByte_eq_add (a b : Byte) : sumByte a b = a + b :=
  BitVec.eq_of_toNat_eq ((toNat_sumByte a b).trans (BitVec.toNat_add a b).symm)

/-- 0xFF is -1 modulo 256, so an immediate add can count down (R144). -/
theorem sumByte_allOnes (a : Byte) : sumByte a 0xFF = a - 1 := by
  rw [sumByte_eq_add, BitVec.sub_eq_add_neg]
  rfl

end Sys2Proof.Machine

namespace Sys2Proof.Proofs

open Sys2Proof.Machine Sys2Proof.Laws

/-- Settles O15: both meanings are one register write, and writing a register with its own value is no change. -/
theorem loadAndCopyRegister : Obligations.LoadAndCopyRegister := by
  refine ⟨fun x kk => decodeWord_eq_some_of_encode_eq (EncodesRow.ldImm x kk) rfl rfl,
    fun x y => decodeWord_eq_some_of_encode_eq (EncodesRow.ldReg x y) rfl rfl,
    fun x kk s => exec_writeV_spec (exec_ldImm s x kk), fun x y s => ?_⟩
  have hself : x = y → s.writeV x (s.readV y) = s := by
    rintro rfl
    exact writeV_readV_self s x
  exact ⟨_, exec_ldReg s x y, State.readV_writeV_same x _, hself, onlyRegs_writeV s x _⟩

/-- Settles O16: one register write of the sum modulo 256, which for 0xFF is the difference with 1. -/
theorem addImmediateWritesNoFlag : Obligations.AddImmediateWritesNoFlag := by
  refine ⟨fun x kk => decodeWord_eq_some_of_encode_eq (EncodesRow.addImm x kk) rfl rfl, fun x kk s => ?_⟩
  obtain ⟨t, hexec, hread, honly⟩ := exec_writeV_spec (exec_addImm s x kk)
  refine ⟨t, hexec, ?_, ?_, honly⟩
  · rw [hread, toNat_sumByte]
  · rintro rfl
    rw [hread, sumByte_allOnes]

/-- Settles O17: each meaning is one register write, of a value whose bits the library gives; a byte cancels itself under
exclusive OR. -/
theorem logicOperationsLeaveVF : Obligations.LogicOperationsLeaveVF := by
  refine ⟨fun x y => ⟨decodeWord_eq_some_of_encode_eq (EncodesRow.or x y) rfl rfl,
      decodeWord_eq_some_of_encode_eq (EncodesRow.and x y) rfl rfl,
      decodeWord_eq_some_of_encode_eq (EncodesRow.xor x y) rfl rfl⟩,
    fun x y s => ?_, fun x y s => ?_, fun x y s => ?_⟩
  · obtain ⟨t, hexec, hread, honly⟩ := exec_writeV_spec (exec_or s x y)
    exact ⟨t, hexec, fun j => by rw [hread, BitVec.getLsbD_or], honly⟩
  · obtain ⟨t, hexec, hread, honly⟩ := exec_writeV_spec (exec_and s x y)
    exact ⟨t, hexec, fun j => by rw [hread, BitVec.getLsbD_and], honly⟩
  · obtain ⟨t, hexec, hread, honly⟩ := exec_writeV_spec (exec_xor s x y)
    have hself : x = y → t.readV x = 0 := by
      rintro rfl
      rw [hread, BitVec.xor_self]
      rfl
    exact ⟨t, hexec, fun j => by rw [hread, BitVec.getLsbD_xor], hself, honly⟩

end Sys2Proof.Proofs
end

section
/-! PROOF. The instructions that write `I` and no flag (spec/42_index_memory.md R172, R173): what a write of `I` leaves
unchanged, the value each leaves in `I`, and obligation O22 from these. -/

namespace Sys2Proof.Machine

theorem onlyI_setI (s : State) (w : Word) : OnlyI s { s with i := w } :=
  ⟨fun _ _ => rfl, fun _ => rfl, rfl⟩

/-- Adding a byte to a word is addition modulo 65536 (R173). -/
theorem toNat_add_byteWord (w : Word) (b : Byte) : (w + b.setWidth 16).toNat = (w.toNat + b.toNat) % 65536 := by
  have hbyte : (b.setWidth 16).toNat = b.toNat := BitVec.toNat_setWidth_of_le (by decide)
  rw [BitVec.toNat_add, hbyte]

end Sys2Proof.Machine

namespace Sys2Proof.Proofs

open Sys2Proof.Machine Sys2Proof.Laws

/-- Settles O22: both words select their rows, and both meanings are one write of `I`, of the address field, which has 12 bits,
or of the sum modulo 65536. -/
theorem indexLoadAndAdd : Obligations.IndexLoadAndAdd := by
  refine ⟨fun nnn => decodeWord_eq_some_of_encode_eq (EncodesRow.ldI nnn) rfl rfl,
    fun x => decodeWord_eq_some_of_encode_eq (EncodesRow.addIVx x) rfl rfl, fun nnn s => ?_, fun x s => ?_⟩
  · have hvalue : (nnn.setWidth 16).toNat = nnn.toNat := BitVec.toNat_setWidth_of_le (by decide)
    have hbound : (nnn.setWidth 16).toNat ≤ 0xFFF := hvalue ▸ Nat.le_of_lt_succ nnn.isLt
    exact ⟨_, exec_ldI s nnn, hvalue, hbound, onlyI_setI s _⟩
  · exact ⟨_, exec_addIVx s x, toNat_add_byteWord s.i (s.readV x), onlyI_setI s _⟩

end Sys2Proof.Proofs
end

section
/-! PROOF. The clear of the screen (spec/43_display.md R191): what a write of the display leaves unchanged, and obligation
O28 from it. -/

namespace Sys2Proof.Machine

theorem regsKept_writeDisplay (s : State) (sc : Screen) (flag : Bool) :
    RegsKept [] s { s with screen := sc, redraw := flag } :=
  fun _ _ => rfl

theorem memKept_writeDisplay (s : State) (sc : Screen) (flag : Bool) :
    MemKept s { s with screen := sc, redraw := flag } :=
  fun _ => rfl

end Sys2Proof.Machine

namespace Sys2Proof.Proofs

open Sys2Proof.Machine Sys2Proof.Laws

/-- Settles O28: the word selects its row, and the meaning is one write of the display, of the cleared screen, whose pixels are
all off, and of a set redraw flag. -/
theorem clearScreenTurnsPixelsOff : Obligations.ClearScreenTurnsPixelsOff := by
  refine ⟨decodeWord_eq_some_of_encode_eq EncodesRow.cls rfl rfl, fun s => ?_⟩
  exact ⟨_, exec_cls s, Screen.pixel_clear, rfl, regsKept_writeDisplay s _ _, memKept_writeDisplay s _ _, rfl⟩

end Sys2Proof.Proofs
end

section
/-! PROOF. The two instructions of the delay timer (spec/44_keys_timers.md R205, R206): how `Tick` counts the delay timer
down (R240), what a write of `DT` leaves unchanged, and obligation O33 from these. -/

namespace Sys2Proof.Machine

/-- The sound timer's part of `Tick` leaves the delay timer alone. -/
@[simp] theorem tickSound_dt (s : State) : (tickSound s).dt = s.dt := by
  unfold tickSound
  split
  · rfl
  · split <;> rfl

/-- The delay timer stops at 0, as the difference of numbers does. -/
theorem toNat_tickDelay_dt (s : State) : (tickDelay s).dt.toNat = s.dt.toNat - 1 := by
  unfold tickDelay
  split
  case isTrue hzero => simp [hzero]
  case isFalse hnonzero =>
    have hone : (1 : Byte) ≤ s.dt := by bv_omega
    exact BitVec.toNat_sub_of_le hone

theorem tick_of_running (s : State) (hrun : s.paused = false) : tick s = tickDelay (tickSound s) :=
  if_neg (Bool.eq_false_iff.1 hrun)

theorem toNat_tick_dt (s : State) (hrun : s.paused = false) : (tick s).dt.toNat = s.dt.toNat - 1 := by
  rw [tick_of_running s hrun, toNat_tickDelay_dt, tickSound_dt]

theorem perform_tick (s : State) : perform .tick s = .next (tick s) := rfl

theorem regsKept_setDt (s : State) (b : Byte) : RegsKept [] s { s with dt := b } := fun _ _ => rfl

theorem memKept_setDt (s : State) (b : Byte) : MemKept s { s with dt := b } := fun _ => rfl

end Sys2Proof.Machine

namespace Sys2Proof.Proofs

open Sys2Proof.Machine Sys2Proof.Laws

/-- Settles O33: `Fx07` is one register write, `Fx15` one write of `DT`, and a tick that is not paused counts down the value
it finds in `DT`. -/
theorem delayTimerReadAndSet : Obligations.DelayTimerReadAndSet := by
  refine ⟨fun x => ⟨decodeWord_eq_some_of_encode_eq (EncodesRow.ldVxDt x) rfl rfl,
      decodeWord_eq_some_of_encode_eq (EncodesRow.ldDtVx x) rfl rfl⟩,
    fun x s => exec_writeV_spec (exec_ldVxDt s x), fun x s => ?_⟩
  exact ⟨_, exec_ldDtVx s x, rfl, regsKept_setDt s _, memKept_setDt s _, rfl,
    fun hrun => ⟨_, perform_tick _, toNat_tick_dt _ hrun⟩⟩

end Sys2Proof.Proofs
end

section
/-! PROOF. The renderer's and the diagnostics' transitions (spec/60_exceptions.md R247, R248, R250): the pixels a screen read
returns, what a completed drawing instruction does to the redraw flag, and obligations O40 and O41 from these. -/

namespace Sys2Proof.Machine

theorem perform_readScreen (s : State) : perform .readScreen s = .next s := rfl

theorem perform_clearRedraw (s : State) : perform .clearRedraw s = .next (clearRedraw s) := rfl

theorem perform_dump (s : State) : perform .dump s = .next s := rfl

theorem reply_readScreen (s : State) : reply .readScreen s = .screen (readScreen s).1 s.redraw := rfl

theorem reply_dump (s : State) : reply .dump s = .snapshot (dump s) := rfl

/-- Each byte of a screen read is its pixel as a byte. -/
theorem readScreen_getElem (s : State) (c : Fin 64) (r : Fin 32) :
    (readScreen s).1[c][r] = flagByte (s.screen.pixel c r) := by
  simp only [readScreen, Screen.pixel, Fin.getElem_fin, Vector.getElem_map]

theorem redraw_of_exec_cls {s t : State} (hexec : exec .cls s = .next t) : t.redraw = true := by
  obtain rfl := Host.Outcome.next.inj ((exec_cls s).symm.trans hexec)
  rfl

/-- A draw sets the redraw flag unless its sprite reaches beyond memory, which leaves the machine FAULTED. -/
theorem redraw_of_exec_drw {x y : Reg} {n : Nat} {s t : State} (hexec : exec (.drw x y n) s = .next t)
    (hrun : t.status = .running) : t.redraw = true := by
  obtain rfl := Host.Outcome.next.inj ((exec_drw s x y n).symm.trans hexec)
  split at hrun
  case isTrue hbound => rw [if_pos hbound]
  case isFalse => exact absurd hrun (by simp)

end Sys2Proof.Machine

namespace Sys2Proof.Proofs

open Sys2Proof.Machine

/-- Settles O40: both transitions answer the state they are given, and the replies hold its pixels as bytes and its fields. -/
theorem hostReadsArePure : Obligations.HostReadsArePure := by
  refine ⟨fun s => ⟨perform_readScreen s, _, reply_readScreen s, fun c r => ?_⟩,
    fun s => ⟨perform_dump s, _, reply_dump s, rfl, rfl, rfl, rfl, rfl, rfl, rfl, rfl⟩⟩
  rw [readScreen_getElem, toNat_flagByte]

/-- Settles O41: the transition is one write of the flag, and a clear or a completed draw sets the flag from every state. -/
theorem clearRedrawUntilNextDraw : Obligations.ClearRedrawUntilNextDraw :=
  fun s => ⟨_, perform_clearRedraw s, clearRedraw_redraw s, rfl, fun _ => redraw_of_exec_cls,
    fun _ _ _ _ => redraw_of_exec_drw⟩

end Sys2Proof.Proofs
end

section
/-! PROOF. The round trip of encoder and decoder and the illegal words (spec/30_encoding.md R90 to R97): every instruction
encodes to a word of its row, every word of a row is the encoding of what the row builds, and obligations O1 to O4 from these. -/

namespace Sys2Proof.Laws

/-! ### From an instruction to its word and back -/

/-- The family `EncodesRow` holds of every instruction. -/
theorem encodesRow : ∀ ins : Instr, EncodesRow.Statement ins
  | .cls => EncodesRow.cls
  | .ret => EncodesRow.ret
  | .jp nnn => EncodesRow.jp nnn
  | .call nnn => EncodesRow.call nnn
  | .seImm x kk => EncodesRow.seImm x kk
  | .sneImm x kk => EncodesRow.sneImm x kk
  | .seReg x y => EncodesRow.seReg x y
  | .ldImm x kk => EncodesRow.ldImm x kk
  | .addImm x kk => EncodesRow.addImm x kk
  | .ldReg x y => EncodesRow.ldReg x y
  | .or x y => EncodesRow.or x y
  | .and x y => EncodesRow.and x y
  | .xor x y => EncodesRow.xor x y
  | .addReg x y => EncodesRow.addReg x y
  | .sub x y => EncodesRow.sub x y
  | .shr x y => EncodesRow.shr x y
  | .subn x y => EncodesRow.subn x y
  | .shl x y => EncodesRow.shl x y
  | .sneReg x y => EncodesRow.sneReg x y
  | .ldI nnn => EncodesRow.ldI nnn
  | .jpV0 nnn => EncodesRow.jpV0 nnn
  | .rnd x kk => EncodesRow.rnd x kk
  | .drw x y n => EncodesRow.drw x y n
  | .skp x => EncodesRow.skp x
  | .sknp x => EncodesRow.sknp x
  | .ldVxDt x => EncodesRow.ldVxDt x
  | .ldVxK x => EncodesRow.ldVxK x
  | .ldDtVx x => EncodesRow.ldDtVx x
  | .ldStVx x => EncodesRow.ldStVx x
  | .addIVx x => EncodesRow.addIVx x
  | .ldFVx x => EncodesRow.ldFVx x
  | .ldBVx x => EncodesRow.ldBVx x
  | .ldMemVx x => EncodesRow.ldMemVx x
  | .ldVxMem x => EncodesRow.ldVxMem x

theorem decodeWord_encode {ins : Instr} (hwf : ins.WellFormed) : decodeWord (encode ins) = some ins :=
  decodeWord_encode_of_encodesRow (encodesRow ins) hwf

/-- A word followed by any bytes decodes to the instruction of the word. -/
theorem decode_cons_of_decodeWord {hi lo : Byte} {ins : Instr} (rest : List Byte)
    (hword : decodeWord (wordOfBytes hi lo) = some ins) : decode (hi :: lo :: rest) = .ok (ins, rest) := by
  simp only [decode, hword]

/-- What decodes is two bytes whose word is an instruction, and the bytes after them. -/
theorem decode_eq_ok {bytes rest : List Byte} {ins : Instr} (h : decode bytes = .ok (ins, rest)) :
    ∃ hi lo, bytes = hi :: lo :: rest ∧ decodeWord (wordOfBytes hi lo) = some ins := by
  unfold decode at h
  split at h
  · rename_i hi lo tail
    split at h
    · rename_i ins' hword
      cases h
      exact ⟨hi, lo, rfl, hword⟩
    · cases h
  · cases h

theorem bytesOfWord_wordOfBytes (hi lo : Byte) : bytesOfWord (wordOfBytes hi lo) = [hi, lo] := by
  have hhi : (wordOfBytes hi lo).extractLsb' 8 8 = hi := by
    apply BitVec.eq_of_getLsbD_eq
    intro i hi
    simp [getLsbD_wordOfBytes, hi]
  have hlo : (wordOfBytes hi lo).extractLsb' 0 8 = lo := by
    apply BitVec.eq_of_getLsbD_eq
    intro i hi
    simp [getLsbD_wordOfBytes, hi]
  rw [bytesOfWord, hhi, hlo]

/-! ### From a word to its instruction and back -/

/-- Every word that selects the row is the encoding of the well-formed instruction that the row builds of it. -/
def RowRoundTrips (r : OpcodeRow) : Prop :=
  ∀ w, r.selects w = true → (r.build w).WellFormed ∧ encode (r.build w) = w

theorem roundTrips_fixed {p : Word} {ins : Instr} (hp : encode ins = p) (hwf : ins.WellFormed) :
    RowRoundTrips ⟨p, 0xFFFF, fun _ => ins⟩ := by
  intro w hsel
  have hw : w &&& 0xFFFF = p := beq_iff_eq.1 hsel
  have hall : w &&& 0xFFFF = w := BitVec.and_allOnes
  exact ⟨hwf, by rw [hp, ← hw, hall]⟩

theorem roundTrips_NNN {p : Word} {f : Addr → Instr} (op : BitVec 4) (hp : p = encodeNNN op 0 := by decide)
    (henc : ∀ nnn, encode (f nnn) = encodeNNN op nnn := by intros; rfl)
    (hwf : ∀ nnn, (f nnn).WellFormed := by intros; rfl) :
    RowRoundTrips ⟨p, 0xF000, fun w => f (fieldNNN w)⟩ :=
  fun w hsel => ⟨hwf _, (henc _).trans (encodeNNN_fields w op ((beq_iff_eq.1 hsel).trans hp))⟩

theorem roundTrips_XKK {p : Word} {f : Reg → Byte → Instr} (op : BitVec 4) (hp : p = encodeXKK op 0 0 := by decide)
    (henc : ∀ x kk, encode (f x kk) = encodeXKK op x kk := by intros; rfl)
    (hwf : ∀ x kk, (f x kk).WellFormed := by intros; rfl) :
    RowRoundTrips ⟨p, 0xF000, fun w => f (fieldX w) (fieldKK w)⟩ :=
  fun w hsel => ⟨hwf _ _, (henc _ _).trans (encodeXKK_fields w op ((beq_iff_eq.1 hsel).trans hp))⟩

theorem roundTrips_XSUB {p : Word} {f : Reg → Instr} (op : BitVec 4) (kk : Byte) (hp : p = encodeXKK op 0 kk := by decide)
    (henc : ∀ x, encode (f x) = encodeXKK op x kk := by intros; rfl)
    (hwf : ∀ x, (f x).WellFormed := by intros; rfl) :
    RowRoundTrips ⟨p, 0xF0FF, fun w => f (fieldX w)⟩ :=
  fun w hsel => ⟨hwf _, (henc _).trans (encodeXKK_fieldX w op kk ((beq_iff_eq.1 hsel).trans hp))⟩

theorem roundTrips_XYN {p : Word} {f : Reg → Reg → Instr} (op n : BitVec 4) (hp : p = encodeXYN op 0 0 n := by decide)
    (henc : ∀ x y, encode (f x y) = encodeXYN op x y n := by intros; rfl)
    (hwf : ∀ x y, (f x y).WellFormed := by intros; rfl) :
    RowRoundTrips ⟨p, 0xF00F, fun w => f (fieldX w) (fieldY w)⟩ :=
  fun w hsel => ⟨hwf _ _, (henc _ _).trans (encodeXYN_fields w op n ((beq_iff_eq.1 hsel).trans hp))⟩

theorem roundTrips_drw :
    RowRoundTrips ⟨0xD000, 0xF000, fun w => .drw (fieldX w) (fieldY w) (fieldN w)⟩ := by
  intro w hsel
  have hn : fieldN w < 16 := (w.extractLsb' 0 4).isLt
  exact ⟨decide_eq_true hn, encodeXYN_fields_drw w 0xD ((beq_iff_eq.1 hsel).trans (by decide))⟩

theorem opcodeRowsLow_roundTrip : ∀ r ∈ opcodeRowsLow, RowRoundTrips r := by
  simp only [opcodeRowsLow, List.forall_mem_cons]
  exact ⟨roundTrips_fixed rfl rfl, roundTrips_fixed rfl rfl, roundTrips_NNN 0x1, roundTrips_NNN 0x2,
    roundTrips_XKK 0x3, roundTrips_XKK 0x4, roundTrips_XYN 0x5 0x0, roundTrips_XKK 0x6, roundTrips_XKK 0x7,
    List.forall_mem_nil _⟩

theorem opcodeRowsAlu_roundTrip : ∀ r ∈ opcodeRowsAlu, RowRoundTrips r := by
  simp only [opcodeRowsAlu, List.forall_mem_cons]
  exact ⟨roundTrips_XYN 0x8 0x0, roundTrips_XYN 0x8 0x1, roundTrips_XYN 0x8 0x2, roundTrips_XYN 0x8 0x3,
    roundTrips_XYN 0x8 0x4, roundTrips_XYN 0x8 0x5, roundTrips_XYN 0x8 0x6, roundTrips_XYN 0x8 0x7,
    roundTrips_XYN 0x8 0xE, List.forall_mem_nil _⟩

theorem opcodeRowsMid_roundTrip : ∀ r ∈ opcodeRowsMid, RowRoundTrips r := by
  simp only [opcodeRowsMid, List.forall_mem_cons]
  exact ⟨roundTrips_XYN 0x9 0x0, roundTrips_NNN 0xA, roundTrips_NNN 0xB, roundTrips_XKK 0xC, roundTrips_drw,
    List.forall_mem_nil _⟩

theorem opcodeRowsHigh_roundTrip : ∀ r ∈ opcodeRowsHigh, RowRoundTrips r := by
  simp only [opcodeRowsHigh, List.forall_mem_cons]
  exact ⟨roundTrips_XSUB 0xE 0x9E, roundTrips_XSUB 0xE 0xA1, roundTrips_XSUB 0xF 0x07, roundTrips_XSUB 0xF 0x0A,
    roundTrips_XSUB 0xF 0x15, roundTrips_XSUB 0xF 0x18, roundTrips_XSUB 0xF 0x1E, roundTrips_XSUB 0xF 0x29,
    roundTrips_XSUB 0xF 0x33, roundTrips_XSUB 0xF 0x55, roundTrips_XSUB 0xF 0x65, List.forall_mem_nil _⟩

theorem opcodeRows_roundTrip {r : OpcodeRow} (hr : r ∈ opcodeRows) : RowRoundTrips r := by
  simp only [opcodeRows, List.mem_append] at hr
  obtain ((hr | hr) | hr) | hr := hr
  · exact opcodeRowsLow_roundTrip r hr
  · exact opcodeRowsAlu_roundTrip r hr
  · exact opcodeRowsMid_roundTrip r hr
  · exact opcodeRowsHigh_roundTrip r hr

theorem encode_of_decodeWord {w : Word} {ins : Instr} (h : decodeWord w = some ins) :
    ins.WellFormed ∧ encode ins = w := by
  obtain ⟨r, hr, hsel, rfl⟩ := decodeWord_eq_some h
  exact opcodeRows_roundTrip hr w hsel

/-! ### The rows as numbers -/

/-- The mask of a row keeps the top nibble and the `k` lowest bits. -/
theorem toNat_and_rowMask (w : Word) {k : Nat} (hk : k ≤ 12) :
    (w &&& (0xF000#16 ||| BitVec.ofNat 16 (2 ^ k - 1))).toNat = 2 ^ 12 * (w.toNat / 2 ^ 12) + w.toNat % 2 ^ k := by
  have hpow : 2 ^ k ≤ 2 ^ 12 := Nat.pow_le_pow_right (by decide) hk
  have htop : w &&& 0xF000#16 = (w >>> 12) <<< 12 := by
    apply word_ext
    intro i hi
    interval_cases i <;> simp
  have htopNat : ((w >>> 12) <<< 12).toNat = 2 ^ 12 * (w.toNat / 2 ^ 12) := by
    have hw := w.isLt
    simp only [BitVec.toNat_shiftLeft, BitVec.toNat_ushiftRight, Nat.shiftLeft_eq, Nat.shiftRight_eq_div_pow]
    omega
  have hlow : (w &&& BitVec.ofNat 16 (2 ^ k - 1)).toNat = w.toNat % 2 ^ k := by
    rw [BitVec.toNat_and, BitVec.toNat_ofNat, Nat.mod_eq_of_lt (by omega), Nat.and_two_pow_sub_one_eq_mod]
  have hlt : w.toNat % 2 ^ k < 2 ^ 12 := lt_of_lt_of_le (Nat.mod_lt _ (Nat.two_pow_pos k)) hpow
  rw [BitVec.and_or_distrib_left, BitVec.toNat_or, htop, htopNat, hlow, Nat.two_pow_add_eq_or_of_lt hlt]

/-- A row selects a word iff the top nibble is that of the pattern and so are the `k` lowest bits. -/
theorem selects_iff_rowMask {p mask : Word} {f : Word → Instr} (w : Word) {k : Nat} (hk : k ≤ 12)
    (hmask : mask = 0xF000#16 ||| BitVec.ofNat 16 (2 ^ k - 1)) :
    (OpcodeRow.mk p mask f).selects w = true ↔
      w.toNat / 4096 = p.toNat / 4096 ∧ w.toNat % 2 ^ k = p.toNat % 4096 := by
  have hpow : 2 ^ k ≤ 2 ^ 12 := Nat.pow_le_pow_right (by decide) hk
  have hlt : w.toNat % 2 ^ k < 4096 := lt_of_lt_of_le (Nat.mod_lt _ (Nat.two_pow_pos k)) hpow
  rw [OpcodeRow.selects, beq_iff_eq, ← BitVec.toNat_inj, hmask, toNat_and_rowMask w hk]
  dsimp only
  omega

section
variable {p : Word} {f : Word → Instr} (w : Word)

theorem selects_iff_op : (OpcodeRow.mk p 0xF000 f).selects w = true ↔
    w.toNat / 4096 = p.toNat / 4096 ∧ w.toNat % 1 = p.toNat % 4096 :=
  selects_iff_rowMask (k := 0) w (by decide) (by decide)

theorem selects_iff_op_n : (OpcodeRow.mk p 0xF00F f).selects w = true ↔
    w.toNat / 4096 = p.toNat / 4096 ∧ w.toNat % 16 = p.toNat % 4096 :=
  selects_iff_rowMask (k := 4) w (by decide) (by decide)

theorem selects_iff_op_kk : (OpcodeRow.mk p 0xF0FF f).selects w = true ↔
    w.toNat / 4096 = p.toNat / 4096 ∧ w.toNat % 256 = p.toNat % 4096 :=
  selects_iff_rowMask (k := 8) w (by decide) (by decide)

theorem selects_iff_op_nnn : (OpcodeRow.mk p 0xFFFF f).selects w = true ↔
    w.toNat / 4096 = p.toNat / 4096 ∧ w.toNat % 4096 = p.toNat % 4096 :=
  selects_iff_rowMask (k := 12) w (by decide) (by decide)

end

theorem decodeWord_eq_none_iff (w : Word) : decodeWord w = none ↔ ∀ r ∈ opcodeRows, ¬ r.selects w = true := by
  rw [decodeWord, Option.map_eq_none_iff, List.find?_eq_none]

end Sys2Proof.Laws

namespace Sys2Proof.Proofs

open Sys2Proof.Machine Sys2Proof.Laws

/-- Settles O1: closed words, decoded by evaluation. -/
theorem specWordsDecode : Obligations.SpecWordsDecode :=
  ⟨rfl, rfl, rfl, rfl, rfl, rfl, rfl, rfl, rfl, rfl, rfl, rfl, rfl, rfl⟩

/-- Settles O2: the bytes are those of the word, high byte first, and the word selects the row of the instruction. -/
theorem decodeOfEncodeIsTheInstruction : Obligations.DecodeOfEncodeIsTheInstruction := by
  intro ins rest hwf
  refine decode_cons_of_decodeWord rest ?_
  rw [wordOfBytes_bytesOfWord, decodeWord_encode hwf]

/-- Settles O3: the first two bytes are a word that selects a row, and each row of the map loses no bit. -/
theorem encodeOfDecodeIsTheBytes : Obligations.EncodeOfDecodeIsTheBytes := by
  intro bytes ins rest h
  obtain ⟨hi, lo, rfl, hword⟩ := decode_eq_ok h
  obtain ⟨hwf, henc⟩ := encode_of_decodeWord hword
  refine ⟨hwf, ?_⟩
  rw [encodeBytes, henc, bytesOfWord_wordOfBytes]
  rfl

/-- Settles O4: a word is no instruction iff no row selects it; as numbers this is one condition on each top nibble. -/
theorem illegalWordsAreThoseListed : Obligations.IllegalWordsAreThoseListed := by
  intro w
  rw [decodeWord_eq_none_iff, illegalWord]
  simp only [opcodeRows, opcodeRowsLow, opcodeRowsAlu, opcodeRowsMid, opcodeRowsHigh, List.cons_append,
    List.nil_append, List.forall_mem_cons, selects_iff_op, selects_iff_op_n, selects_iff_op_kk, selects_iff_op_nnn]
  have hop : w.toNat / 4096 < 16 := by have := w.isLt; omega
  have hn : w.toNat % 16 < 16 := Nat.mod_lt _ (by decide)
  generalize w.toNat / 4096 = op at *
  interval_cases op <;> simp [Nat.mod_one]
  -- Left is group 8, where the last nibble has one list of legal and one of illegal values.
  omega

end Sys2Proof.Proofs
end

section
/-! PROOF. What an instruction can do, said once by groups of the writers' table (spec/10_state.md R42), and what follows from
it: that every instruction completes, what a fault at execute changes (spec/60_exceptions.md R222, R224), and who writes which
element. Obligations O52 to O55. -/

namespace Sys2Proof.Machine

/-- What the instruction `ins` can do to the state `s` after fetch: take a fault, or one update of the elements its group of
instructions writes. -/
inductive Effect (s : State) : Instr → State → Prop
  /-- A fault taken from the state before the instruction (R224). -/
  | fault {ins : Instr} (cause : FaultCause) (info : Word) (hins : mayFault ins = true) (hcause : cause ≠ .none) :
    Effect s ins (raise cause info s)
  /-- A jump, or a skip taken or not. -/
  | transfer {ins : Instr} (target : Word) (hins : transfersControl ins = true) : Effect s ins { s with pc := target }
  /-- A call below depth 15: the slot it writes is not slot 0. -/
  | call (nnn : Addr) (target : Word) (hslot : s.sp + 1 ≠ 0) :
    Effect s (.call nnn) { pushStack s s.pc with pc := target }
  /-- A return, which leaves every slot. -/
  | ret (target : Word) : Effect s .ret { s with pc := target, sp := s.sp - 1 }
  /-- A write of the one destination register. -/
  | register {ins : Instr} {x : Reg} (b : Byte) (hdest : destinations ins = [x]) (hflag : writesFlag ins = false) :
    Effect s ins (s.writeV x b)
  /-- A result and a flag, in this order (R142). -/
  | result {ins : Instr} {x : Reg} (b : Byte) (flag : Bool) (hdest : destinations ins = [x])
    (hflag : writesFlag ins = true) : Effect s ins (writeResultFlag x b flag s)
  /-- A random byte, whose draw is counted. -/
  | random (x : Reg) (kk b : Byte) : Effect s (.rnd x kk) (s.afterDraw.writeV x b)
  /-- A write of `I`. -/
  | index {ins : Instr} (w : Word) (hins : (∃ nnn, ins = .ldI nnn) ∨ ∃ x, ins = .addIVx x ∨ ins = .ldFVx x) :
    Effect s ins { s with i := w }
  /-- The three decimal digits stored within memory. -/
  | digits (x : Reg) (hbound : s.i.toNat + 2 ≤ 0xFFF) : Effect s (.ldBVx x)
    { s with mem := Memory.writeList s.cfg.fontData s.mem s.i.toNat (bcdDigits (s.readV x)) }
  /-- The register block stored within memory. -/
  | storeBlock (x : Reg) (w : Word) (hbound : s.i.toNat + x.val ≤ 0xFFF)
    (hkeep : w ≠ s.i → s.cfg.legacyIIncrement = true) : Effect s (.ldMemVx x)
    { s with mem := Memory.writeList s.cfg.fontData s.mem s.i.toNat (s.readBlock x), i := w }
  /-- The register block loaded. -/
  | loadBlock (x : Reg) (bytes : List Byte) (w : Word) (hlen : bytes.length = x.val + 1)
    (hkeep : w ≠ s.i → s.cfg.legacyIIncrement = true) : Effect s (.ldVxMem x)
    { s with v := (s.writeVs bytes).v, i := w }
  /-- The screen cleared. -/
  | clear : Effect s .cls { s with screen := Screen.clear, redraw := true }
  /-- A sprite drawn. -/
  | draw (x y : Reg) (n : Nat) (collision : Bool) (sc : Screen) :
    Effect s (.drw x y n) { s.writeV 15 (flagByte collision) with screen := sc, redraw := true }
  /-- The wait for a key begun. -/
  | wait (x : Reg) : Effect s (.ldVxK x) { s with waitKey := true }
  /-- The delay timer set. -/
  | delay (x : Reg) : Effect s (.ldDtVx x) { s with dt := s.readV x }
  /-- The sound timer set, with the beep for a value other than 0. -/
  | sound (x : Reg) : Effect s (.ldStVx x) { s with
      st := s.readV x
      beep := if s.readV x = 0 then s.beep else true
      beepLog := if s.readV x = 0 then s.beepLog else true :: s.beepLog }

/-- The legacy adjustment moves `I` in legacy mode only (R176, R177). -/
theorem legacy_of_bumped_ne {c : Bool} {w i : Word} (h : (if c then w else i) ≠ i) : c = true := by
  by_contra hc
  exact h (if_neg hc)

theorem skipIfKey_effect {ins : Instr} (wanted : Bool) (x : Reg) (s : State) (hfault : mayFault ins = true)
    (htransfer : transfersControl ins = true) : Effect s ins (skipIfKey wanted x s) := by
  rw [skipIfKey_eq]
  split
  · exact .transfer _ htransfer
  · exact .fault _ _ hfault (by decide)

theorem slot_add_one_ne_zero : ∀ k : Slot, k ≠ 15 → k + 1 ≠ 0 := by decide

/-- Every instruction answers a next state, by one of the effects. -/
theorem exec_effect (ins : Instr) (s : State) : ∃ t, exec ins s = .next t ∧ Effect s ins t := by
  cases ins
  case cls => exact ⟨_, exec_cls s, .clear⟩
  case ret =>
    refine ⟨_, exec_ret s, ?_⟩
    split
    · exact .fault _ _ rfl (by decide)
    · exact .ret _
  case jp nnn => exact ⟨_, exec_jp s nnn, .transfer _ rfl⟩
  case call nnn =>
    refine ⟨_, exec_call s nnn, ?_⟩
    split
    · exact .fault _ _ rfl (by decide)
    case isFalse hsp => exact .call nnn _ (slot_add_one_ne_zero s.sp hsp)
  case seImm x kk => exact ⟨_, exec_seImm s x kk, .transfer _ rfl⟩
  case sneImm x kk => exact ⟨_, exec_sneImm s x kk, .transfer _ rfl⟩
  case seReg x y => exact ⟨_, exec_seReg s x y, .transfer _ rfl⟩
  case sneReg x y => exact ⟨_, exec_sneReg s x y, .transfer _ rfl⟩
  case jpV0 nnn => exact ⟨_, exec_jpV0 s nnn, .transfer _ rfl⟩
  case ldImm x kk => exact ⟨_, exec_ldImm s x kk, .register _ rfl rfl⟩
  case addImm x kk => exact ⟨_, exec_addImm s x kk, .register _ rfl rfl⟩
  case ldReg x y => exact ⟨_, exec_ldReg s x y, .register _ rfl rfl⟩
  case or x y => exact ⟨_, exec_or s x y, .register _ rfl rfl⟩
  case and x y => exact ⟨_, exec_and s x y, .register _ rfl rfl⟩
  case xor x y => exact ⟨_, exec_xor s x y, .register _ rfl rfl⟩
  case ldVxDt x => exact ⟨_, exec_ldVxDt s x, .register _ rfl rfl⟩
  case addReg x y => exact ⟨_, exec_addReg s x y, .result _ _ rfl rfl⟩
  case sub x y => exact ⟨_, exec_sub s x y, .result _ _ rfl rfl⟩
  case shr x y => exact ⟨_, exec_shr s x y, .result _ _ rfl rfl⟩
  case subn x y => exact ⟨_, exec_subn s x y, .result _ _ rfl rfl⟩
  case shl x y => exact ⟨_, exec_shl s x y, .result _ _ rfl rfl⟩
  case rnd x kk => exact ⟨_, exec_rnd s x kk, .random x kk _⟩
  case ldI nnn => exact ⟨_, exec_ldI s nnn, .index _ (.inl ⟨nnn, rfl⟩)⟩
  case addIVx x => exact ⟨_, exec_addIVx s x, .index _ (.inr ⟨x, .inl rfl⟩)⟩
  case ldFVx x => exact ⟨_, exec_ldFVx s x, .index _ (.inr ⟨x, .inr rfl⟩)⟩
  case ldBVx x =>
    refine ⟨_, exec_ldBVx s x, ?_⟩
    split
    case isTrue hbound => exact .digits x hbound
    · exact .fault _ _ rfl (by decide)
  case ldMemVx x =>
    refine ⟨_, exec_ldMemVx s x, ?_⟩
    split
    case isTrue hbound => exact .storeBlock x _ hbound legacy_of_bumped_ne
    · exact .fault _ _ rfl (by decide)
  case ldVxMem x =>
    refine ⟨_, exec_ldVxMem s x, ?_⟩
    split
    · exact .loadBlock x _ _ (State.readBytes_length _ _) legacy_of_bumped_ne
    · exact .fault _ _ rfl (by decide)
  case drw x y n =>
    refine ⟨_, exec_drw s x y n, ?_⟩
    split
    · exact .draw x y n _ _
    · exact .fault _ _ rfl (by decide)
  case skp x => exact ⟨_, exec_skp s x, skipIfKey_effect true x s rfl rfl⟩
  case sknp x => exact ⟨_, exec_sknp s x, skipIfKey_effect false x s rfl rfl⟩
  case ldVxK x => exact ⟨_, exec_ldVxK s x, .wait x⟩
  case ldDtVx x => exact ⟨_, exec_ldDtVx s x, .delay x⟩
  case ldStVx x => exact ⟨_, exec_ldStVx s x, .sound x⟩

theorem effect_of_exec {ins : Instr} {s t : State} (h : exec ins s = .next t) : Effect s ins t := by
  obtain ⟨u, hexec, heffect⟩ := exec_effect ins s
  obtain rfl := Host.Outcome.next.inj (h.symm.trans hexec)
  exact heffect

theorem Effect.boot {ins : Instr} {s t : State} (h : Effect s ins t) : t.boot = s.boot := by
  cases h <;> rfl

theorem Effect.cfg {ins : Instr} {s t : State} (h : Effect s ins t) : t.cfg = s.cfg := by
  cases h <;> rfl

@[simp] theorem mem_destinations_ldVxMem (x k : Reg) : k ∈ destinations (.ldVxMem x) ↔ k ≤ x := by
  simp [destinations]

/-- Only the listed destinations change, and VF by a flag writer (R20, R22). -/
theorem Effect.readV_changed {ins : Instr} {s t : State} (h : Effect s ins t) (k : Reg) (hk : t.readV k ≠ s.readV k) :
    k ∈ destinations ins ∨ (k = 15 ∧ writesFlag ins = true) := by
  cases h
  case register x b hdest hflag =>
    left
    rw [hdest, List.mem_singleton]
    exact not_imp_comm.1 (State.readV_writeV_other b) hk
  case result x b flag hdest hflag =>
    rw [readV_writeResultFlag] at hk
    rw [hdest, List.mem_singleton]
    by_cases hvf : k = 15
    · exact .inr ⟨hvf, hflag⟩
    · left
      by_contra hx
      exact hk (by rw [if_neg hvf, if_neg hx])
  case random x kk b => exact .inl (List.mem_singleton.2 (not_imp_comm.1 (State.readV_writeV_other b) hk))
  case loadBlock x bytes w hlen hkeep =>
    left
    rw [mem_destinations_ldVxMem, Fin.le_def]
    by_contra habove
    refine hk ((State.readV_writeVs bytes k).trans (List.getD_eq_default _ _ ?_))
    omega
  case draw x y n collision sc => exact .inr ⟨not_imp_comm.1 (State.readV_writeV_other _) hk, rfl⟩
  all_goals exact absurd rfl hk

theorem toNat_flagByte_zero_or_one : ∀ b : Bool, (flagByte b).toNat = 0 ∨ (flagByte b).toNat = 1 := by decide

theorem toNat_flagByte_eq_one : ∀ b : Bool, (flagByte b).toNat = 1 ↔ b = true := by decide

theorem writesFlag_of_transfersControl {ins : Instr} (h : transfersControl ins = true) : writesFlag ins = false := by
  cases ins <;> simp_all [transfersControl, writesFlag]

/-- A flag writer that does not fault leaves 0 or 1 in VF (R22, R23). -/
theorem Effect.readVF {ins : Instr} {s t : State} (h : Effect s ins t) (hflag : writesFlag ins = true)
    (hrun : t.status = .running) : ∃ flag, t.readV 15 = flagByte flag := by
  cases h
  case fault => exact absurd hrun (by simp)
  case result x b flag hdest hf => exact ⟨flag, by rw [readV_writeResultFlag, if_pos rfl]⟩
  case draw x y n collision sc => exact ⟨collision, State.readV_writeV_same 15 _⟩
  case transfer target hins => exact absurd hflag (by simp [writesFlag_of_transfersControl hins])
  case index w hins => obtain ⟨nnn, rfl⟩ | ⟨x, rfl | rfl⟩ := hins <;> cases hflag
  case register hf => exact absurd hflag (by simp [hf])
  all_goals cases hflag

end Sys2Proof.Machine

namespace Sys2Proof.Proofs

open Sys2Proof.Machine

/-- Settles O52: no effect writes one of the kept fields. -/
theorem everyInstructionCompletes : Obligations.EveryInstructionCompletes := by
  intro ins s
  obtain ⟨t, hexec, heffect⟩ := exec_effect ins s
  refine ⟨t, hexec, ?_⟩
  clear hexec
  cases heffect <;> exact ⟨rfl, rfl, rfl, rfl, rfl, rfl, rfl⟩

/-- Settles O53: of the effects only the fault writes `Status`. -/
theorem executeFaultsArePrecise : Obligations.ExecuteFaultsArePrecise := by
  intro ins s t hrun hexec hfault
  cases effect_of_exec hexec
  case fault cause info hcause hins => exact ⟨hins, hcause, rfl⟩
  all_goals exact absurd (hrun.symm.trans hfault) (by decide)

/-- Settles O54: each effect names the elements it writes and the instructions it belongs to. -/
theorem onlyNamedWritersWrite : Obligations.OnlyNamedWritersWrite := by
  intro ins s t hexec
  have heffect := effect_of_exec hexec
  clear hexec
  cases heffect
  case index w hins =>
    simpa using fun _ => hins.imp_right Or.inl
  case loadBlock x bytes w hlen hkeep =>
    have hdest : destinations (.ldVxMem x) ≠ [] := List.ne_nil_of_mem ((mem_destinations_ldVxMem x x).2 le_rfl)
    simpa [hdest] using hkeep
  all_goals simp_all [destinations, writesFlag, transfersControl, mayFault]

/-- Settles O55: the registers an effect changes are destinations or VF, and a flag writer leaves a flag. -/
theorem onlyFlagWritersTouchVF : Obligations.OnlyFlagWritersTouchVF := by
  intro ins s t hexec
  have heffect := effect_of_exec hexec
  refine ⟨heffect.readV_changed, fun _ hrun hflag => ?_⟩
  obtain ⟨flag, hvf⟩ := heffect.readVF hflag hrun
  rw [hvf]
  exact toNat_flagByte_zero_or_one flag

end Sys2Proof.Proofs
end

section
/-! PROOF. What the other agents do commutes with what an instruction does (spec/20_memory.md R71): an instruction reads and
writes the program's part of the state only, a tick leaves that part alone unless the timers belong to it, and a key event
unless the keys do. Obligations O58 and O59. -/

namespace Sys2Proof.Machine

/-- The state `s` with the program's part taken from `p`. The flags say whether the timers with the beep and the keys belong to
it; the pause gate, the schedule and the boot mark never do. -/
def State.withProgram (timers keys : Bool) (s p : State) : State :=
  { s with
    v := p.v, i := p.i, pc := p.pc, stack := p.stack, sp := p.sp, mem := p.mem, screen := p.screen, redraw := p.redraw,
    ir := p.ir, waitKey := p.waitKey, status := p.status, faultCause := p.faultCause, faultInfo := p.faultInfo,
    cfg := p.cfg, draws := p.draws,
    dt := cond timers p.dt s.dt, st := cond timers p.st s.st, beep := cond timers p.beep s.beep,
    beepLog := cond timers p.beepLog s.beepLog, keys := cond keys p.keys s.keys }

theorem State.withProgram_self (timers keys : Bool) (s : State) : s.withProgram timers keys s = s := by
  cases timers <;> cases keys <;> rfl

theorem skipIfKey_withProgram (timers wanted : Bool) (x : Reg) (u s : State) :
    skipIfKey wanted x (u.withProgram timers true s) = u.withProgram timers true (skipIfKey wanted x s) := by
  rw [skipIfKey_eq, skipIfKey_eq, apply_dite (u.withProgram _ _)]
  rfl

/-- An instruction does to the program's part what it does in every other state with that part, and nothing to the rest,
where the timers and the keys belong to the part if the instruction uses them. -/
theorem exec_withProgram {timers keys : Bool} {ins : Instr} (htimers : usesTimer ins = true → timers = true)
    (hkeys : readsKeys ins = true → keys = true) (u s : State) :
    exec ins (u.withProgram timers keys s) = mapNext (u.withProgram timers keys) (exec ins s) := by
  cases ins
  case ldVxDt => obtain rfl := htimers rfl; rfl
  case ldDtVx => obtain rfl := htimers rfl; rfl
  case ldStVx => obtain rfl := htimers rfl; rw [exec_ldStVx, exec_ldStVx]; rfl
  case skp => obtain rfl := hkeys rfl; exact congrArg _ (skipIfKey_withProgram timers true _ u s)
  case sknp => obtain rfl := hkeys rfl; exact congrArg _ (skipIfKey_withProgram timers false _ u s)
  case ret => rw [exec_ret, exec_ret, mapNext, apply_ite (u.withProgram _ _)]; rfl
  case call => rw [exec_call, exec_call, mapNext, apply_ite (u.withProgram _ _)]; rfl
  case seImm => rw [exec_seImm, exec_seImm]; rfl
  case sneImm => rw [exec_sneImm, exec_sneImm]; rfl
  case seReg => rw [exec_seReg, exec_seReg]; rfl
  case sneReg => rw [exec_sneReg, exec_sneReg]; rfl
  case drw => rw [exec_drw, exec_drw, mapNext, apply_ite (u.withProgram _ _)]; rfl
  case ldBVx => rw [exec_ldBVx, exec_ldBVx, mapNext, apply_ite (u.withProgram _ _)]; rfl
  case ldMemVx => rw [exec_ldMemVx, exec_ldMemVx, mapNext, apply_ite (u.withProgram _ _)]; rfl
  case ldVxMem => rw [exec_ldVxMem, exec_ldVxMem, mapNext, apply_ite (u.withProgram _ _)]; rfl
  all_goals rfl

/-- What `f` does neither depends on the program's part nor changes it. -/
def IgnoresProgram (timers keys : Bool) (f : State → State) : Prop :=
  ∀ s p, f (s.withProgram timers keys p) = (f s).withProgram timers keys p

/-- So an instruction commutes with everything that ignores the part it uses. -/
theorem exec_comm_of_ignoresProgram {timers keys : Bool} {f : State → State} (hf : IgnoresProgram timers keys f)
    {ins : Instr} (htimers : usesTimer ins = true → timers = true) (hkeys : readsKeys ins = true → keys = true)
    (s : State) : exec ins (f s) = mapNext f (exec ins s) := by
  obtain ⟨t, hexec, -⟩ := exec_effect ins s
  have hagain : exec ins s = .next (s.withProgram timers keys t) := by
    have h := exec_withProgram htimers hkeys s s
    rwa [State.withProgram_self, hexec, mapNext, ← hexec] at h
  have hself : s.withProgram timers keys t = t := Host.Outcome.next.inj (hagain.symm.trans hexec)
  calc exec ins (f s) = exec ins ((f s).withProgram timers keys s) := by rw [← hf, State.withProgram_self]
    _ = .next ((f s).withProgram timers keys t) := by rw [exec_withProgram htimers hkeys, hexec, mapNext]
    _ = .next (f t) := by rw [← hf, hself]
    _ = mapNext f (exec ins s) := by rw [hexec, mapNext]

/-! ### The agents -/

theorem tickSound_ignoresProgram : IgnoresProgram false true tickSound := by
  intro s p
  unfold tickSound
  rw [apply_ite (State.withProgram false true · p), apply_ite (State.withProgram false true · p)]
  rfl

theorem tickDelay_ignoresProgram : IgnoresProgram false true tickDelay := by
  intro s p
  unfold tickDelay
  rw [apply_ite (State.withProgram false true · p)]
  rfl

/-- A tick ignores all but the timers and the beep. -/
theorem tick_ignoresProgram : IgnoresProgram false true tick := by
  intro s p
  cases hp : s.paused
  case false =>
    rw [tick_of_running _ hp, tick_of_running (s.withProgram _ _ p) hp, tickSound_ignoresProgram,
      tickDelay_ignoresProgram]
  case true => rw [tick, tick, if_pos hp, if_pos (show (s.withProgram _ _ p).paused = true from hp)]

/-- A key event ignores all but the keys and the last-key slot. -/
theorem keyDown_ignoresProgram (k : Nat) : IgnoresProgram true false (keyDown k) := by
  intro s p
  unfold keyDown
  split <;> rfl

theorem keyUp_ignoresProgram (k : Nat) : IgnoresProgram true false (keyUp k) := by
  intro s p
  unfold keyUp
  split <;> rfl

end Sys2Proof.Machine

namespace Sys2Proof.Proofs

open Sys2Proof.Machine

/-- Settles O58: a tick ignores the part of the program that uses no timer. -/
theorem ticksCommuteWithOtherInstructions : Obligations.TicksCommuteWithOtherInstructions :=
  fun _ s htimer => exec_comm_of_ignoresProgram tick_ignoresProgram (fun h => htimer.symm.trans h) (fun _ => rfl) s

/-- Settles O59: a key event ignores the part of the program that reads no key. -/
theorem keyEventsCommuteWithOtherInstructions : Obligations.KeyEventsCommuteWithOtherInstructions :=
  fun _ k s hkeys =>
    ⟨exec_comm_of_ignoresProgram (keyDown_ignoresProgram k) (fun _ => rfl) (fun h => hkeys.symm.trans h) s,
      exec_comm_of_ignoresProgram (keyUp_ignoresProgram k) (fun _ => rfl) (fun h => hkeys.symm.trans h) s⟩

end Sys2Proof.Proofs
end

section
/-! PROOF. The executor (spec/30_encoding.md R94, spec/44_keys_timers.md R203): when its two transitions have a step, what a
fetch reads, and obligations O5 to O8 from these. -/

namespace Sys2Proof.Machine

variable {s : State}

/-! ### `Cycle` -/

theorem step_of_schedule_cons {t : Transition} {rest : List Transition} (h : s.schedule = t :: rest) :
    step s = perform t { s with schedule := rest } := by
  simp only [step, nextTransition, h]

theorem cycle_of_not_enabled (h : s.cycleEnabled = false) : cycle s = .next s := by
  rw [cycle, if_neg (Bool.eq_false_iff.1 h)]

theorem cycleEnabled_eq_false (h : s.paused = true ∨ s.status = .faulted ∨ s.waitKey = true) :
    s.cycleEnabled = false := by
  obtain h | h | h := h <;> simp [State.cycleEnabled, h]

/-- Where the executor's `Cycle` is next, the step is a fetch from the state marked as started. -/
theorem step_of_cycleNext (h : CycleNext s) : step s = fetchDecodeExecute { s with boot := .started } := by
  obtain ⟨hsched, hstatus, hpaused, hwait, hboot⟩ := h
  have hallows : s.bootAllowsCycle = true := by
    obtain hboot | hboot := hboot <;> simp [State.bootAllowsCycle, hboot]
  have henabled : s.cycleEnabled = true := cycleEnabled_iff.2 ⟨hstatus, hpaused, hwait, hallows⟩
  simp only [step, nextTransition, hsched, unscheduledTurn, hstatus, executorTurn, hwait, cycle, henabled, if_true,
    Bool.false_eq_true, if_false]

theorem memRead_atPC (hpc : s.pc.toNat ≤ 0xFFE) :
    memRead s s.pc.toNat 2 = some [s.readByte s.pc.toNat, s.readByte (s.pc.toNat + 1)] :=
  (memRead_eq_some _ _ _).2 ⟨(inBounds_iff _ _).2 (by omega), rfl⟩

theorem memRead_beyond {a : Nat} (ha : 0xFFE < a) : memRead s a 2 = none :=
  (memRead_eq_none _ _).2 ⟨by decide, by unfold memSize; omega⟩

/-- A fetch with `PC` beyond 0xFFE faults and changes nothing but the record (R63, R94). -/
theorem fetchDecodeExecute_beyond (hpc : 0xFFE < s.pc.toNat) :
    fetchDecodeExecute s = .next (raise .memoryFault s.pc s) := by
  simp only [fetchDecodeExecute, memRead_beyond hpc]

/-- A word that is an instruction is executed on the state after fetch (R94). -/
theorem fetchDecodeExecute_of_some {ins : Instr} (hpc : s.pc.toNat ≤ 0xFFE) (hword : decodeWord s.wordAtPC = some ins) :
    fetchDecodeExecute s = exec ins (s.afterFetch s.wordAtPC) := by
  rw [State.wordAtPC] at hword
  simp only [fetchDecodeExecute, memRead_atPC hpc, decode_two, hword]
  rfl

/-- A word that is no instruction faults on the state after fetch (R94). -/
theorem fetchDecodeExecute_of_none (hpc : s.pc.toNat ≤ 0xFFE) (hword : decodeWord s.wordAtPC = none) :
    fetchDecodeExecute s = .next (raise .unknownOpcode s.wordAtPC (s.afterFetch s.wordAtPC)) := by
  rw [State.wordAtPC] at hword
  simp only [fetchDecodeExecute, memRead_atPC hpc, decode_two, hword]
  rfl

/-! ### `KeyWaitComplete` -/

theorem deliverableKey_eq_none (h : s.paused = true ∨ s.status = .faulted ∨ s.waitKey = false ∨ s.lastKey = none) :
    s.deliverableKey = none := by
  obtain h | h | h | h := h <;> simp [State.deliverableKey, h]

theorem keyWaitComplete_of_none (h : s.deliverableKey = none) : keyWaitComplete s = s := by
  rw [keyWaitComplete, h]

/-- Where an `Fx0A` waits and nothing is scheduled, the step delivers the key in the slot. -/
theorem step_of_waiting {k : Key} (hsched : s.schedule = []) (hstatus : s.status = .running) (hpaused : s.paused = false)
    (hwait : s.waitKey = true) (hkey : s.lastKey = some k) : step s = .next (deliverKey k s) := by
  have hdeliver : s.deliverableKey = some k := by simp [State.deliverableKey, hstatus, hwait, hpaused, hkey]
  simp only [step, nextTransition, hsched, unscheduledTurn, hstatus, executorTurn, hwait, if_true, keyWaitComplete,
    hdeliver]

/-- The field `x` is the second nibble of the word (R91). -/
theorem eq_fieldX_of_val {w : Word} {x : Reg} (hx : x.val = w.toNat / 256 % 16) : x = fieldX w := by
  apply Fin.ext
  rw [hx, fieldX, BitVec.val_toFin, BitVec.extractLsb'_toNat, Nat.shiftRight_eq_div_pow]

end Sys2Proof.Machine

namespace Sys2Proof.Proofs

open Sys2Proof.Machine Sys2Proof.Laws

/-- Settles O5: the `Cycle` that is next fetches the word at `PC`, which the decoder reads as the instruction. -/
theorem stepRunsDecodedInstruction : Obligations.StepRunsDecodedInstruction := by
  refine ⟨fun s ins rest hnext hpc hdecode => ?_, fun s t rest hsched => step_of_schedule_cons hsched⟩
  obtain ⟨hi, lo, hbytes, hword⟩ := decode_eq_ok hdecode
  cases hbytes
  rw [step_of_cycleNext hnext]
  exact fetchDecodeExecute_of_some hpc hword

/-- Settles O6: the `Cycle` that is next takes one of the two faults. -/
theorem fetchAndDecodeFaultsAreTaken : Obligations.FetchAndDecodeFaultsAreTaken := by
  refine ⟨fun s hnext hpc hillegal => ?_, fun s hnext hpc => ?_⟩
  · rw [step_of_cycleNext hnext]
    exact fetchDecodeExecute_of_none hpc ((illegalWordsAreThoseListed _).2 hillegal)
  · rw [step_of_cycleNext hnext]
    exact fetchDecodeExecute_beyond hpc

/-- Settles O7: neither transition has a step. -/
theorem heldExecutorChangesNothing : Obligations.HeldExecutorChangesNothing :=
  ⟨fun _ h => cycle_of_not_enabled (cycleEnabled_eq_false h),
    fun _ h => congrArg Host.Outcome.next (keyWaitComplete_of_none (deliverableKey_eq_none h))⟩

/-- Settles O8: the step is the delivery, one register write that also ends the wait. -/
theorem keyWaitCompletes : Obligations.KeyWaitCompletes := by
  intro s k hsched hstatus hpaused hwait hkey
  refine ⟨_, step_of_waiting hsched hstatus hpaused hwait hkey, fun x hx => ?_, rfl, rfl, fun _ => rfl, rfl⟩
  obtain rfl := eq_fieldX_of_val hx
  have hbyte : (BitVec.ofNat 8 k.val).toNat = k.val := by
    rw [BitVec.toNat_ofNat]
    omega
  constructor
  · exact (congrArg BitVec.toNat (State.readV_writeV_same (s := s) (fieldX s.ir) _)).trans hbyte
  · exact fun j hj => State.readV_writeV_other _ (List.ne_of_not_mem_cons hj)

end Sys2Proof.Proofs
end

section
/-! PROOF. Jumps, call and return (spec/40_flow.md R121 to R124, R130): the targets as numbers, what a push and a pop leave
unchanged, and obligations O9 to O12 from these. -/

namespace Sys2Proof.Machine

/-- An address field as a word has its value (R93). -/
theorem toNat_addrWord (nnn : Addr) : (nnn.setWidth 16).toNat = nnn.toNat := BitVec.toNat_setWidth_of_le (by decide)

/-- A register value as a word has its value (R93). -/
theorem toNat_byteWord (b : Byte) : (b.setWidth 16).toNat = b.toNat := BitVec.toNat_setWidth_of_le (by decide)

/-- The target of `Bnnn` is the sum as a natural number, since 16 bits hold it (R124). -/
theorem toNat_offsetTarget (b : Byte) (nnn : Addr) : (b.setWidth 16 + nnn.setWidth 16).toNat = b.toNat + nnn.toNat := by
  have hb := b.isLt
  have hnnn := nnn.isLt
  rw [BitVec.toNat_add, toNat_byteWord, toNat_addrWord]
  omega

/-- Below depth 15 the push takes the next slot. -/
theorem val_slot_add_one {k : Slot} (h : k ≠ 15) : (k + 1).val = k.val + 1 := by
  revert k
  decide

theorem val_slot_sub_one {k : Slot} (h : k ≠ 0) : (k - 1).val + 1 = k.val := by
  revert k
  decide

theorem exec_call_of_not_full {s : State} (h : s.sp ≠ 15) (nnn : Addr) :
    exec (.call nnn) s = .next { pushStack s s.pc with pc := nnn.setWidth 16 } := by
  rw [exec_call, if_neg h]
  rfl

theorem exec_call_of_full {s : State} (h : s.sp = 15) (nnn : Addr) :
    exec (.call nnn) s = .next (raise .stackFault s.ir s) := by
  rw [exec_call, if_pos h]

theorem exec_ret_of_not_empty {s : State} (h : s.sp ≠ 0) :
    exec .ret s = .next { s with pc := s.readStack s.sp, sp := s.sp - 1 } := by
  rw [exec_ret, if_neg h]

theorem exec_ret_of_empty {s : State} (h : s.sp = 0) : exec .ret s = .next (raise .stackFault s.ir s) := by
  rw [exec_ret, if_pos h]

end Sys2Proof.Machine

namespace Sys2Proof.Proofs

open Sys2Proof.Machine Sys2Proof.Laws

/-- Settles O9: both words select their rows, both meanings are one write of `PC`, and the loop is a fetch of the jump to the
address it was fetched from. -/
theorem jumpsLoadPC : Obligations.JumpsLoadPC := by
  refine ⟨fun nnn => ⟨decodeWord_eq_some_of_encode_eq (EncodesRow.jp nnn) rfl rfl,
      decodeWord_eq_some_of_encode_eq (EncodesRow.jpV0 nnn) rfl rfl⟩,
    fun nnn s => ⟨_, exec_jp s nnn, toNat_addrWord nnn, onlyPC_setPC s _⟩,
    fun nnn s hnext hself hpc hword => ?_, fun nnn s => ?_⟩
  · have hjp : decodeWord s.wordAtPC = some (.jp nnn) := by
      rw [hword]
      exact decodeWord_eq_some_of_encode_eq (EncodesRow.jp nnn) rfl rfl
    have htarget : nnn.setWidth 16 = s.pc := BitVec.eq_of_toNat_eq ((toNat_addrWord nnn).trans hself.symm)
    rw [step_of_cycleNext hnext, fetchDecodeExecute_of_some (s := { s with boot := .started }) hpc hjp, exec_jp, htarget]
    rfl
  · have htarget := toNat_offsetTarget (s.readV 0) nnn
    refine ⟨_, exec_jpV0 s nnn, htarget, ?_, onlyPC_setPC s _, memRead_beyond⟩
    have hv := (s.readV 0).isLt
    have hnnn := nnn.isLt
    exact htarget.trans_le (by omega)

/-- Settles O10: below depth 15 a push and a write of `PC`, at depth 15 the fault. -/
theorem callPushesReturnAddress : Obligations.CallPushesReturnAddress := by
  refine ⟨fun nnn s hsp => ?_, fun nnn s hsp => ⟨_, exec_call_of_full hsp nnn, rfl⟩⟩
  refine ⟨_, exec_call_of_not_full hsp nnn, val_slot_add_one hsp, ?_, toNat_addrWord nnn, fun k hk => ?_,
    fun _ _ => rfl, fun _ => rfl, rfl⟩
  · exact (readStack_pushStack s.pc (s.sp + 1)).trans (if_pos rfl)
  · exact (readStack_pushStack s.pc k).trans (if_neg hk)

/-- Settles O11: with a call active a write of `PC` and `SP`, else the fault. -/
theorem returnPopsReturnAddress : Obligations.ReturnPopsReturnAddress :=
  ⟨fun _ hsp => ⟨_, exec_ret_of_not_empty hsp, rfl, val_slot_sub_one hsp, fun _ => rfl, fun _ _ => rfl, fun _ => rfl, rfl⟩,
    fun _ hsp => ⟨_, exec_ret_of_empty hsp, rfl⟩⟩

/-- Settles O12: the return reads the slot the call wrote. -/
theorem returnComesBackFromCall : Obligations.ReturnComesBackFromCall := by
  intro nnn s t u hsp hcall husp hustack
  obtain rfl := Host.Outcome.next.inj ((exec_call_of_not_full hsp nnn).symm.trans hcall)
  have hslot : u.sp = s.sp + 1 := husp
  have htop : u.readStack u.sp = s.pc := by
    have hread : u.readStack (s.sp + 1) = (pushStack s s.pc).readStack (s.sp + 1) := by
      rw [State.readStack, hustack]
      rfl
    rw [hslot, hread, readStack_pushStack, if_pos rfl]
  have hdepth : u.sp - 1 = s.sp := by rw [hslot, add_sub_cancel_right]
  have hret : exec .ret u = .next { u with pc := s.pc, sp := s.sp } := by
    rw [exec_ret_of_not_empty (hslot ▸ slot_add_one_ne_zero s.sp hsp), htop, hdepth]
  exact ⟨_, hret, rfl, rfl, rfl⟩

end Sys2Proof.Proofs
end

section
/-! PROOF. The instructions that write a result and a flag, and the random byte (spec/41_alu.md R149 to R154): what a result
with a flag leaves unchanged, the flags as numbers, and obligations O18 to O21 from these. -/

namespace Sys2Proof.Machine

/-- An instruction whose meaning is a result and a flag answers a state with the flag in VF and, where VF is not the
destination, the result in `V[x]`; nothing else changed. -/
theorem exec_result_spec {ins : Instr} {s : State} {x : Reg} {r : Byte} {flag : Bool}
    (hresult : exec ins s = .next (writeResultFlag x r flag s)) :
    ∃ t, exec ins s = .next t ∧ (x ≠ 15 → t.readV x = r) ∧ (t.readV 15).toNat = (if flag then 1 else 0) ∧
      OnlyRegs [x, 15] s t := by
  refine ⟨_, hresult, fun hx => ?_, ?_, fun k hk => ?_, fun _ => rfl, rfl⟩
  · rw [readV_writeResultFlag, if_neg hx, if_pos rfl]
  · rw [readV_writeResultFlag, if_pos rfl, toNat_flagByte]
  · rw [List.mem_cons, List.mem_singleton, not_or] at hk
    rw [readV_writeResultFlag, if_neg hk.2, if_neg hk.1]

theorem carryOut_iff (a b : Byte) : carryOut a b = true ↔ a.toNat + b.toNat > 255 := decide_eq_true_iff

theorem notBorrow_iff (a b : Byte) : notBorrow a b = true ↔ a.toNat ≥ b.toNat := decide_eq_true_iff

theorem toNat_shiftRight_one (a : Byte) : (a >>> 1).toNat = a.toNat / 2 := by
  rw [BitVec.toNat_ushiftRight, Nat.shiftRight_eq_div_pow, pow_one]

theorem toNat_shiftLeft_one (a : Byte) : (a <<< 1).toNat = a.toNat * 2 % 256 := by
  rw [BitVec.toNat_shiftLeft, Nat.shiftLeft_eq, pow_one]

/-- The bit a right shift drops is the remainder by 2. -/
theorem flag_droppedLow (a : Byte) : (if droppedLow a then 1 else 0) = a.toNat % 2 := by
  rw [droppedLow, ← BitVec.testBit_toNat, Nat.testBit_zero]
  split <;> simp_all

/-- The bit a left shift drops is the quotient by 128. -/
theorem flag_droppedHigh (a : Byte) : (if droppedHigh a then 1 else 0) = a.toNat / 128 := by
  have ha := a.isLt
  have hbit : droppedHigh a = true ↔ a.toNat / 128 % 2 = 1 := by
    rw [droppedHigh, ← BitVec.testBit_toNat, Nat.testBit_eq_decide_div_mod_eq, decide_eq_true_iff]
  simp only [hbit]
  split <;> omega

/-- A masked byte has no bit that the mask lacks. -/
theorem and_and_not_self (a kk : Byte) : a &&& kk &&& ~~~kk = 0 := by
  rw [BitVec.and_assoc, BitVec.and_not_self]
  exact BitVec.and_zero

end Sys2Proof.Machine

namespace Sys2Proof.Proofs

open Sys2Proof.Machine Sys2Proof.Laws

/-- Settles O18: the result is the sum modulo 256, the flag the carry. -/
theorem addRegistersCarryIntoVF : Obligations.AddRegistersCarryIntoVF := by
  refine ⟨fun x y => decodeWord_eq_some_of_encode_eq (EncodesRow.addReg x y) rfl rfl, fun x y s => ?_⟩
  obtain ⟨t, hexec, hresult, hflag, honly⟩ := exec_result_spec (exec_addReg s x y)
  refine ⟨t, hexec, fun hx => ?_, ?_, honly⟩
  · rw [hresult hx, toNat_sumByte]
  · simp only [hflag, carryOut_iff]

/-- Settles O19: the result is the difference modulo 256, the flag the not-borrow, in both orders. -/
theorem subtractionsNotBorrowIntoVF : Obligations.SubtractionsNotBorrowIntoVF := by
  refine ⟨fun x y s => ?_, fun x y s => ?_⟩
  · obtain ⟨t, hexec, hresult, hflag, honly⟩ := exec_result_spec (exec_sub s x y)
    refine ⟨t, hexec, fun hx => ?_, ?_, honly⟩
    · rw [hresult hx, toNat_diffByte]
    · simp only [hflag, notBorrow_iff]
  · obtain ⟨t, hexec, hresult, hflag, honly⟩ := exec_result_spec (exec_subn s x y)
    refine ⟨t, hexec, fun hx => ?_, ?_, honly⟩
    · rw [hresult hx, toNat_diffByte]
    · simp only [hflag, notBorrow_iff]

/-- Settles O20: the result is the shifted byte, the flag the bit shifted out. -/
theorem shiftsDropBitIntoVF : Obligations.ShiftsDropBitIntoVF := by
  refine ⟨fun x y s => ?_, fun x y s => ?_⟩
  · obtain ⟨t, hexec, hresult, hflag, honly⟩ := exec_result_spec (exec_shr s x y)
    refine ⟨t, hexec, fun hx => ?_, ?_, honly⟩
    · rw [hresult hx, toNat_shiftRight_one]
    · rw [hflag, flag_droppedLow]
  · obtain ⟨t, hexec, hresult, hflag, honly⟩ := exec_result_spec (exec_shl s x y)
    refine ⟨t, hexec, fun hx => ?_, ?_, honly⟩
    · rw [hresult hx, toNat_shiftLeft_one]
    · rw [hflag, flag_droppedHigh]

/-- Settles O21: one register write of the masked draw, and the count of draws. -/
theorem randomByteIsMasked : Obligations.RandomByteIsMasked := by
  intro x kk s
  have hread : (s.writeV x (Config.randomByte s.draws &&& kk)).readV x = Config.randomByte s.draws &&& kk :=
    State.readV_writeV_same x _
  refine ⟨_, exec_rnd s x kk, hread, ?_, ?_, rfl, fun k hk => ?_, fun _ => rfl, rfl⟩
  · exact (congrArg (· &&& ~~~kk) hread).trans (and_and_not_self _ kk)
  · rintro rfl
    exact hread.trans BitVec.and_zero
  · exact State.readV_writeV_other _ (List.ne_of_not_mem_cons hk)

end Sys2Proof.Proofs
end

section
/-! PROOF. The glyph address and the moves between registers and memory (spec/42_index_memory.md R171, R174 to R178): what reads
back after a store, what a block load leaves, the adjustment of `I`, and obligations O23 to O27 from these. -/

namespace Sys2Proof.Machine

variable {s : State}

theorem toNat_glyphAddr (b : Byte) : (glyphAddr b).toNat = 0x050 + 5 * b.toNat := by
  have hb := b.isLt
  rw [glyphAddr, fontBase, BitVec.toNat_ofNat]
  omega

/-- `I` after a block move: past the block in legacy mode, else as before (R176, R177). -/
theorem toNat_bumped (legacy : Bool) (i : Word) (x : Reg) :
    (if legacy then i + BitVec.ofNat 16 (x.val + 1) else i).toNat =
      if legacy then (i.toNat + x.val + 1) % 65536 else i.toNat := by
  split
  · rw [BitVec.toNat_add, BitVec.toNat_ofNat, Nat.add_mod_mod, Nat.add_assoc]
  · rfl

/-- The state with bytes stored from `addr` on. -/
def State.store (s : State) (addr : Nat) (bytes : List Byte) : State :=
  { s with mem := Memory.writeList s.cfg.fontData s.mem addr bytes }

theorem store_readByte_inside {addr k : Nat} {bytes : List Byte} (hcanonical : MemCanonical s) (hk : k < bytes.length) :
    (s.store addr bytes).readByte (addr + k) = bytes[k] :=
  Memory.read_writeList_inside (Memory.wf_iff.1 hcanonical).1 hk

theorem store_memKeptOutside (s : State) (addr : Nat) (bytes : List Byte) :
    MemKeptOutside addr bytes.length s (s.store addr bytes) :=
  fun _ ha => Memory.read_writeList_outside ha

/-- Each decimal digit of a byte fits a byte. -/
theorem toNat_ofNat_digit {d : Nat} (h : d < 10) : (BitVec.ofNat 8 d).toNat = d := by
  rw [BitVec.toNat_ofNat]
  omega

theorem exec_ldBVx_of_bound (x : Reg) (h : s.i.toNat + 2 ≤ 0xFFF) :
    exec (.ldBVx x) s = .next (s.store s.i.toNat (bcdDigits (s.readV x))) := by
  rw [exec_ldBVx, if_pos h]
  rfl

theorem exec_ldMemVx_of_bound (x : Reg) (h : s.i.toNat + x.val ≤ 0xFFF) :
    exec (.ldMemVx x) s = .next { s.store s.i.toNat (s.readBlock x) with
      i := if s.cfg.legacyIIncrement then s.i + BitVec.ofNat 16 (x.val + 1) else s.i } := by
  rw [exec_ldMemVx, if_pos h]
  rfl

theorem exec_ldVxMem_of_bound (x : Reg) (h : s.i.toNat + x.val ≤ 0xFFF) :
    exec (.ldVxMem x) s = .next { s with
      v := (s.writeVs (s.readBytes s.i.toNat (x.val + 1))).v
      i := if s.cfg.legacyIIncrement then s.i + BitVec.ofNat 16 (x.val + 1) else s.i } := by
  rw [exec_ldVxMem, if_pos h]

/-- The block stored from `addr` on reads back as the registers. -/
theorem store_readBlock (hcanonical : MemCanonical s) (addr : Nat) {x k : Reg} (hk : k ≤ x) :
    (s.store addr (s.readBlock x)).readByte (addr + k.val) = s.readV k := by
  have hlen : k.val < (s.readBlock x).length := by
    rw [length_readBlock]
    exact Nat.lt_succ_of_le hk
  rw [store_readByte_inside hcanonical hlen, getElem_readBlock s x k hlen]

/-- The registers up to `x` take the bytes of the block. -/
theorem writeVs_readBytes_readV (addr : Nat) {x k : Reg} (hk : k ≤ x) :
    (s.writeVs (s.readBytes addr (x.val + 1))).readV k = s.readByte (addr + k.val) := by
  have hlen : k.val < (s.readBytes addr (x.val + 1)).length := by
    rw [State.readBytes_length]
    exact Nat.lt_succ_of_le hk
  rw [State.readV_writeVs, List.getD_eq_getElem _ _ hlen, State.getElem_readBytes]

/-- The registers above the block keep their values. -/
theorem writeVs_readV_above {bytes : List Byte} {k : Reg} (hk : bytes.length ≤ k.val) :
    (s.writeVs bytes).readV k = s.readV k := by
  rw [State.readV_writeVs, List.getD_eq_default _ _ hk]

end Sys2Proof.Machine

namespace Sys2Proof.Proofs

open Sys2Proof.Machine

/-- Settles O23: one write of `I`, of a number that 16 bits hold. -/
theorem glyphAddressFromRegister : Obligations.GlyphAddressFromRegister := by
  intro x s
  have hvalue := toNat_glyphAddr (s.readV x)
  have hv := (s.readV x).isLt
  exact ⟨_, exec_ldFVx s x, hvalue, hvalue.trans_le (by omega), onlyI_setI s _⟩

/-- Settles O24: within memory a store of the three digits, else the fault. -/
theorem decimalDigitsAreStored : Obligations.DecimalDigitsAreStored := by
  refine ⟨fun x s hcanonical hbound => ?_, fun x s hbeyond => ?_⟩
  · have hv := (s.readV x).isLt
    have hdigit (k : Nat) (hk : k < 3) :
        (s.store s.i.toNat (bcdDigits (s.readV x))).readByte (s.i.toNat + k) = (bcdDigits (s.readV x))[k]'hk :=
      store_readByte_inside hcanonical hk
    exact ⟨_, exec_ldBVx_of_bound x hbound,
      (congrArg BitVec.toNat (hdigit 0 (by decide))).trans (toNat_ofNat_digit (by omega)),
      (congrArg BitVec.toNat (hdigit 1 (by decide))).trans (toNat_ofNat_digit (by omega)),
      (congrArg BitVec.toNat (hdigit 2 (by decide))).trans (toNat_ofNat_digit (by omega)),
      store_memKeptOutside s s.i.toNat (bcdDigits (s.readV x)), fun _ _ => rfl, rfl⟩
  · rw [exec_ldBVx, if_neg (by omega)]
    exact ⟨_, rfl, rfl⟩

/-- Settles O25: within memory a store of the block and the adjustment of `I`, else the fault. -/
theorem registerBlockIsStored : Obligations.RegisterBlockIsStored := by
  refine ⟨fun x s hcanonical hbound => ?_, fun x s hbeyond => ?_⟩
  · have houtside := store_memKeptOutside s s.i.toNat (s.readBlock x)
    rw [length_readBlock] at houtside
    exact ⟨_, exec_ldMemVx_of_bound x hbound, fun k hk => store_readBlock hcanonical _ hk, houtside,
      toNat_bumped _ s.i x, fun _ _ => rfl, rfl⟩
  · rw [exec_ldMemVx, if_neg (by omega)]
    exact ⟨_, rfl, rfl⟩

/-- Settles O26: within memory a write of the registers up to `x` and the adjustment of `I`, else the fault. -/
theorem registerBlockIsLoaded : Obligations.RegisterBlockIsLoaded := by
  refine ⟨fun x s hbound => ?_, fun x s hbeyond => ?_⟩
  · refine ⟨_, exec_ldVxMem_of_bound x hbound, fun k hk => writeVs_readBytes_readV _ hk, fun k hk => ?_,
      toNat_bumped _ s.i x, fun _ => rfl, rfl⟩
    refine writeVs_readV_above ?_
    rw [State.readBytes_length]
    exact hk
  · rw [exec_ldVxMem, if_neg (by omega)]
    exact ⟨_, rfl, rfl⟩

/-- Settles O27: the block load of O26 reads what the block store of O25 wrote. -/
theorem storeThenLoadRestoresRegisters : Obligations.StoreThenLoadRestoresRegisters := by
  intro x s t u hcanonical hbound hstore hmem hcfg hi
  obtain ⟨t', hstore', hblock, -, -, -, hframe⟩ := registerBlockIsStored.1 x s hcanonical hbound
  obtain rfl := Host.Outcome.next.inj (hstore.symm.trans hstore')
  have hcfg' : u.cfg = s.cfg := hcfg.trans (congrArg (·.cfg) hframe)
  obtain ⟨r, hload, hlow, habove, hindex, -, -⟩ := registerBlockIsLoaded.1 x u (by rwa [hi])
  refine ⟨r, hload, fun k hk => ?_, habove, ?_⟩
  · rw [hlow k hk, hi, State.readByte_congr hmem hcfg, hblock k hk]
  · rw [hindex, hi, hcfg']

end Sys2Proof.Proofs
end

section
/-! PROOF. The draw (spec/43_display.md R192 to R195): the pixels of a sprite in drawing order are those that `spriteCovers`
lists, and obligations O29 and O30 from this and from what one draw does (`blitRows_spec`). -/

namespace Sys2Proof.Machine

variable {s t : State}

/-- The pixels with a set bit in drawing order are the listed ones. -/
theorem mem_spritePixels_iff_covers (s : State) (vx vy n : Nat) (c : Fin 64) (r : Fin 32) :
    ((c, r), true) ∈ spritePixels vx vy (s.readBytes s.i.toNat n) ↔ spriteCovers s vx vy n c r := by
  rw [mem_spritePixels]
  constructor
  · rintro ⟨k, b, hk, hb, hc, hr, hbit⟩
    rw [State.getElem_readBytes] at hbit
    exact ⟨k, b, (State.readBytes_length (s := s) s.i.toNat n) ▸ hk, hb, hc, hr, hbit⟩
  · rintro ⟨k, b, hk, hb, hc, hr, hbit⟩
    have hlen : k < (s.readBytes s.i.toNat n).length := (State.readBytes_length (s := s) s.i.toNat n).symm ▸ hk
    refine ⟨k, b, hlen, hb, hc, hr, ?_⟩
    rw [State.getElem_readBytes]
    exact hbit

section
variable {vx vy n : Nat} (hn : n ≤ 15) (c : Fin 64) (r : Fin 32)
include hn

theorem blitRows_pixel : (blitRows vx vy (s.readBytes s.i.toNat n) (s.screen, false)).1.pixel c r =
    (s.screen.pixel c r ^^ decide (((c, r), true) ∈ spritePixels vx vy (s.readBytes s.i.toNat n))) :=
  (blitRows_spec vx vy _ (by rw [State.readBytes_length]; omega) _).1 c r

/-- A covered pixel is flipped. -/
theorem blitRows_pixel_of_covers (hcovers : spriteCovers s vx vy n c r) :
    (blitRows vx vy (s.readBytes s.i.toNat n) (s.screen, false)).1.pixel c r = !(s.screen.pixel c r) := by
  rw [blitRows_pixel hn, decide_eq_true ((mem_spritePixels_iff_covers s vx vy n c r).2 hcovers), Bool.xor_true]

/-- Another pixel keeps its value. -/
theorem blitRows_pixel_of_not_covers (hcovers : ¬ spriteCovers s vx vy n c r) :
    (blitRows vx vy (s.readBytes s.i.toNat n) (s.screen, false)).1.pixel c r = s.screen.pixel c r := by
  rw [blitRows_pixel hn, decide_eq_false (mt (mem_spritePixels_iff_covers s vx vy n c r).1 hcovers), Bool.xor_false]

omit c r in
/-- The draw collides iff a covered pixel was on. -/
theorem blitRows_collision : (blitRows vx vy (s.readBytes s.i.toNat n) (s.screen, false)).2 = true ↔
    ∃ c r, spriteCovers s vx vy n c r ∧ s.screen.pixel c r = true := by
  rw [(blitRows_spec vx vy _ (by rw [State.readBytes_length]; omega) _).2, Bool.false_or, List.any_eq_true]
  constructor
  · rintro ⟨⟨⟨c, r⟩, bit⟩, hmem, hon⟩
    obtain ⟨rfl, hpixel⟩ := Bool.and_eq_true_iff.1 hon
    exact ⟨c, r, (mem_spritePixels_iff_covers s vx vy n c r).1 hmem, hpixel⟩
  · rintro ⟨c, r, hcovers, hpixel⟩
    exact ⟨((c, r), true), (mem_spritePixels_iff_covers s vx vy n c r).2 hcovers, hpixel⟩

end

theorem exec_drw_of_bound (x y : Reg) {n : Nat} (h : n = 0 ∨ s.i.toNat + n - 1 ≤ 0xFFF) :
    exec (.drw x y n) s = .next { s with
      v := (s.writeV 15 (flagByte (blitRows (s.readV x).toNat (s.readV y).toNat (s.readBytes s.i.toNat n)
        (s.screen, false)).2)).v
      screen := (blitRows (s.readV x).toNat (s.readV y).toNat (s.readBytes s.i.toNat n) (s.screen, false)).1
      redraw := true } := by
  rw [exec_drw, if_pos (by omega)]

/-- The sprite depends on `I` and memory only. -/
theorem spriteCovers_congr (hi : t.i = s.i) (hmem : MemKept s t) (vx vy n : Nat) (c : Fin 64) (r : Fin 32) :
    spriteCovers t vx vy n c r ↔ spriteCovers s vx vy n c r := by
  simp only [spriteCovers, State.dataAddr, hi, hmem _]

/-- A sprite covers some pixel iff one of its rows has a set bit. -/
theorem exists_spriteCovers_iff (s : State) (vx vy n : Nat) :
    (∃ c r, spriteCovers s vx vy n c r) ↔ ∃ k, k < n ∧ s.readByte (s.i.toNat + k) ≠ 0 := by
  constructor
  · rintro ⟨c, r, k, b, hk, -, -, -, hbit⟩
    refine ⟨k, hk, fun hzero => ?_⟩
    rw [State.dataAddr, hzero] at hbit
    simp at hbit
  · rintro ⟨k, hk, hrow⟩
    have hset : ∃ j < 8, (s.readByte (s.i.toNat + k)).getLsbD j = true := by
      by_contra hnone
      push Not at hnone
      exact hrow (BitVec.eq_of_getLsbD_eq fun j hj => by simpa using hnone j hj)
    obtain ⟨j, hj, hbit⟩ := hset
    refine ⟨Fin.ofNat 64 (vx + (7 - j)), Fin.ofNat 32 (vy + k), k, 7 - j, hk, by omega, rfl, rfl, ?_⟩
    rwa [show 7 - (7 - j) = j by omega]

end Sys2Proof.Machine

namespace Sys2Proof.Proofs

open Sys2Proof.Machine

/-- Settles O29: within memory one draw of the rows, VF taking the collision, else the fault. -/
theorem drawFlipsSpritePixels : Obligations.DrawFlipsSpritePixels := by
  refine ⟨fun x y n s hn hbound => ?_, fun x y n s hpos hbeyond => ?_⟩
  · refine ⟨_, exec_drw_of_bound x y hbound, blitRows_pixel_of_covers hn, blitRows_pixel_of_not_covers hn, ?_, ?_, rfl,
      fun k hk => State.readV_writeV_other _ (List.ne_of_not_mem_cons hk), fun _ => rfl, rfl⟩
    · show ((s.writeV 15 _).readV 15).toNat = 0 ∨ ((s.writeV 15 _).readV 15).toNat = 1
      rw [State.readV_writeV_same]
      exact toNat_flagByte_zero_or_one _
    · show ((s.writeV 15 _).readV 15).toNat = 1 ↔ _
      rw [State.readV_writeV_same, toNat_flagByte_eq_one, blitRows_collision hn]
  · rw [exec_drw, if_neg (by omega)]
    exact ⟨_, rfl, rfl⟩

/-- Settles O30: the second draw covers the pixels of the first, so it flips each back, and it meets the pixels the first left
on. -/
theorem drawTwiceRestoresScreen : Obligations.DrawTwiceRestoresScreen := by
  intro x y n s t hn hbound hdraw hx hy
  obtain ⟨t', hdraw', hflip, hkeep, hflag, hvf, -, -, hmem, hframe⟩ := drawFlipsSpritePixels.1 x y n s hn hbound
  obtain rfl := Host.Outcome.next.inj (hdraw.symm.trans hdraw')
  have hi : t.i = s.i := congrArg (·.i) hframe
  obtain ⟨u, hagain, hflip', hkeep', -, hvf', -⟩ := drawFlipsSpritePixels.1 x y n t hn (by rwa [hi])
  simp only [hx, hy, spriteCovers_congr hi hmem] at hflip' hkeep' hvf'
  refine ⟨u, hagain, Screen.eq_of_pixel fun c r => ?_, fun hclear => ⟨?_, ?_⟩⟩
  · by_cases hcovers : spriteCovers s (s.readV x).toNat (s.readV y).toNat n c r
    · rw [hflip' c r hcovers, hflip c r hcovers, Bool.not_not]
    · rw [hkeep' c r hcovers, hkeep c r hcovers]
  · refine hflag.resolve_right fun hone => ?_
    obtain ⟨c, r, -, hon⟩ := hvf.1 hone
    exact absurd hon (by simp [hclear c r])
  · rw [hvf', ← exists_spriteCovers_iff s (s.readV x).toNat (s.readV y).toNat]
    refine exists_congr fun c => exists_congr fun r => and_iff_left_of_imp fun hcovers => ?_
    rw [hflip c r hcovers, hclear c r, Bool.not_false]

end Sys2Proof.Proofs
end

section
/-! PROOF. The key instructions, the sound timer, `Tick` and the pause gate (spec/44_keys_timers.md R200 to R207,
spec/60_exceptions.md R240 to R246): what a tick does to both timers and the beep, what the gate holds, and obligations O31,
O32 and O34 to O39 from these. -/

namespace Sys2Proof.Machine

variable {s : State}

/-! ### Keys -/

/-- With the number of a key in `V[x]` the skip on a key is decided by the latch (R200, R201). -/
theorem skipIfKey_of_key {x : Reg} {k : Key} (hk : (s.readV x).toNat = k.val) (wanted : Bool) :
    skipIfKey wanted x s = { s with pc := if s.keys[k] = wanted then s.pc + 2 else s.pc } := by
  rw [skipIfKey_eq, dif_pos (hk ▸ k.isLt)]
  simp only [hk, Fin.getElem_fin]

theorem skipIfKey_of_beyond {x : Reg} (hx : 15 < (s.readV x).toNat) (wanted : Bool) :
    skipIfKey wanted x s = raise .keyIndexFault ((s.readV x).setWidth 16) s := by
  rw [skipIfKey_eq, dif_neg (by omega)]

/-- An instruction that skips on a key faults for a number above 15, with the number as information (D13). -/
theorem exec_keyIndexFault_spec {ins : Instr} {wanted : Bool} {x : Reg}
    (hskip : exec ins s = .next (skipIfKey wanted x s)) (hx : 15 < (s.readV x).toNat) :
    ∃ t, exec ins s = .next t ∧ FaultTaken .keyIndexFault t.faultInfo s t ∧ t.faultInfo.toNat = (s.readV x).toNat := by
  rw [skipIfKey_of_beyond hx] at hskip
  exact ⟨_, hskip, rfl, toNat_byteWord (s.readV x)⟩

theorem keyDown_of_lt {k : Nat} (h : k < 16) :
    keyDown k s = { s with keys := s.keys.set k true, lastKey := some ⟨k, h⟩ } := dif_pos h

theorem keyUp_of_lt {k : Nat} (h : k < 16) : keyUp k s = { s with keys := s.keys.set k false } := dif_pos h

theorem keyDown_of_beyond {k : Nat} (h : 15 < k) : keyDown k s = s := dif_neg (by omega)

theorem keyUp_of_beyond {k : Nat} (h : 15 < k) : keyUp k s = s := dif_neg (by omega)

/-- A write of the latch is read back at its key and leaves the others. -/
theorem getElem_set_keys (keys : Vector Bool 16) (k j : Key) (b : Bool) :
    (keys.set k.val b)[j] = if j = k then b else keys[j] := by
  simp only [Fin.getElem_fin, Vector.getElem_set, Fin.ext_iff, eq_comm]

/-! ### `Tick` -/

@[simp] theorem tickDelay_st (s : State) : (tickDelay s).st = s.st := by unfold tickDelay; split <;> rfl
@[simp] theorem tickDelay_beep (s : State) : (tickDelay s).beep = s.beep := by unfold tickDelay; split <;> rfl
@[simp] theorem tickDelay_beepLog (s : State) : (tickDelay s).beepLog = s.beepLog := by unfold tickDelay; split <;> rfl

/-- The sound timer stops at 0, and at 1 to 0 it sends `beep(false)` (R240). -/
theorem tickSound_cases (s : State) :
    (s.st = 0 ∧ tickSound s = s) ∨ (s.st = 1 ∧ tickSound s = emitBeep false { s with st := 0 }) ∨
      (1 < s.st.toNat ∧ tickSound s = { s with st := s.st - 1 }) := by
  by_cases hzero : s.st = 0
  · exact .inl ⟨hzero, if_pos hzero⟩
  by_cases hone : s.st = 1
  · exact .inr (.inl ⟨hone, (if_neg hzero).trans (if_pos hone)⟩)
  · exact .inr (.inr ⟨by bv_omega, (if_neg hzero).trans (if_neg hone)⟩)

theorem toNat_tickSound_st (s : State) : (tickSound s).st.toNat = s.st.toNat - 1 := by
  obtain ⟨hst, h⟩ | ⟨hst, h⟩ | ⟨hst, h⟩ := tickSound_cases s
  · rw [h, hst]; rfl
  · rw [h, hst]; rfl
  · rw [h]; exact BitVec.toNat_sub_of_le (by bv_omega)

theorem tickSound_beep (s : State) : (tickSound s).beep = if s.st.toNat = 1 then false else s.beep := by
  obtain ⟨hst, h⟩ | ⟨hst, h⟩ | ⟨hst, h⟩ := tickSound_cases s
  · rw [h, hst]; rfl
  · rw [h, hst]; rfl
  · rw [h, if_neg (by omega)]

theorem tickSound_beepLog (s : State) :
    (tickSound s).beepLog = if s.st.toNat = 1 then false :: s.beepLog else s.beepLog := by
  obtain ⟨hst, h⟩ | ⟨hst, h⟩ | ⟨hst, h⟩ := tickSound_cases s
  · rw [h, hst]; rfl
  · rw [h, hst]; rfl
  · rw [h, if_neg (by omega)]

theorem tick_of_paused (h : s.paused = true) : tick s = s := if_pos h

section
variable (hrun : s.paused = false)
include hrun

theorem toNat_tick_st : (tick s).st.toNat = s.st.toNat - 1 := by
  rw [tick_of_running s hrun, tickDelay_st, toNat_tickSound_st]

theorem tick_beep : (tick s).beep = if s.st.toNat = 1 then false else s.beep := by
  rw [tick_of_running s hrun, tickDelay_beep, tickSound_beep]

theorem tick_beepLog : (tick s).beepLog = if s.st.toNat = 1 then false :: s.beepLog else s.beepLog := by
  rw [tick_of_running s hrun, tickDelay_beepLog, tickSound_beepLog]

end

/-- With the sound timer at 0 no tick, held or not, changes it or the output. -/
theorem tick_of_silent (h : s.st = 0) :
    (tick s).beep = s.beep ∧ (tick s).beepLog = s.beepLog ∧ (tick s).st = 0 := by
  cases hp : s.paused
  case true => rw [tick_of_paused hp]; exact ⟨rfl, rfl, h⟩
  case false =>
    have hsound : tickSound s = s := if_pos h
    rw [tick_of_running s hp, hsound, tickDelay_st, tickDelay_beep, tickDelay_beepLog]
    exact ⟨rfl, rfl, h⟩

/-- An event at 1 to 0 of a countdown from `k` comes once within `n + 1` counts: at the first of them or within the rest. -/
theorem event_at_zero_succ {α : Type} (event : α → α) (x : α) (k n : Nat) :
    (if 0 < k - 1 ∧ k - 1 ≤ n then event (if k = 1 then event x else x) else if k = 1 then event x else x) =
      if 0 < k ∧ k ≤ n + 1 then event x else x := by
  by_cases hone : k = 1
  · rw [if_neg (by omega), if_pos hone, if_pos (by omega)]
  · have hlater : 0 < k - 1 ∧ k - 1 ≤ n ↔ 0 < k ∧ k ≤ n + 1 := by omega
    simp only [if_neg hone, hlater]

/-- A tick changes nothing but the timers and the beep. -/
theorem tick_eq (s : State) :
    tick s = { s with st := (tick s).st, dt := (tick s).dt, beep := (tick s).beep, beepLog := (tick s).beepLog } := by
  have hprogram : tick s = (tick s).withProgram false true s := by
    rw [← tick_ignoresProgram, State.withProgram_self]
  refine hprogram.trans ?_
  simp only [State.withProgram, cond, tick_lastKey, tick_paused, tick_schedule, tick_boot]

/-! ### The pause gate -/

/-- While paused, neither the cycle loop nor the timer loop has a step (R243). -/
theorem perform_opportunity_of_paused {t : Transition} (ht : isOpportunity t = true) (hp : s.paused = true) :
    perform t s = .next s := by
  cases t <;> cases ht
  case cycle => exact cycle_of_not_enabled (cycleEnabled_eq_false (.inl hp))
  case keyWaitComplete => exact congrArg Host.Outcome.next (keyWaitComplete_of_none (deliverableKey_eq_none (.inl hp)))
  case tick => exact congrArg Host.Outcome.next (tick_of_paused hp)

/-- A run goes on from the next state of its first step. -/
theorem run_succ_of_next {M : Host.Core} {n : Nat} {s t : M.State} (h : M.step s = .next t) :
    M.run (n + 1) s = M.run n t := by
  rw [Host.Core.run, h]

end Sys2Proof.Machine

namespace Sys2Proof.Proofs

open Sys2Proof.Machine Sys2Proof.Laws

/-- Settles O31: both meanings are skips decided by the latch, or the fault. -/
theorem skipOnKeyState : Obligations.SkipOnKeyState :=
  ⟨fun x _ s hk => exec_skip_spec ((exec_skp s x).trans (congrArg Host.Outcome.next (skipIfKey_of_key hk true))),
    fun x _ s hk => exec_skip_spec ((exec_sknp s x).trans (congrArg Host.Outcome.next (skipIfKey_of_key hk false))),
    fun x s hx => ⟨exec_keyIndexFault_spec (exec_skp s x) hx, exec_keyIndexFault_spec (exec_sknp s x) hx⟩⟩

/-- Settles O32: one write of `WaitKey`. -/
theorem keyWaitBegins : Obligations.KeyWaitBegins :=
  fun x s => ⟨_, exec_ldVxK s x, rfl, rfl, fun _ _ => rfl, fun _ => rfl, rfl⟩

/-- Settles O34: one write of the sound timer, with the beep for a value other than 0; a tick of a silent timer sends
nothing. -/
theorem soundTimerSetStartsBeep : Obligations.SoundTimerSetStartsBeep := by
  refine ⟨fun x => decodeWord_eq_some_of_encode_eq (EncodesRow.ldStVx x) rfl rfl, fun x s => ?_⟩
  refine ⟨_, exec_ldStVx s x, rfl, fun hv => ⟨if_neg hv, if_neg hv⟩, fun hv =>
    ⟨if_pos hv, if_pos hv, _, perform_tick _, tick_of_silent hv⟩, fun _ _ => rfl, fun _ => rfl, rfl⟩

/-- Settles O35: the two parts of a tick, the sound timer and then the delay timer. -/
theorem tickCountsDown : Obligations.TickCountsDown := by
  refine fun s => ⟨_, perform_tick s, tick_of_paused, fun hrun => ⟨toNat_tick_st hrun, toNat_tick_dt s hrun,
    fun hone => ?_, fun hone => ?_, fun _ _ => ?_, fun _ => ?_, tick_eq s⟩⟩
  · rw [tick_beep hrun, tick_beepLog hrun, if_pos hone, if_pos hone]
    exact ⟨rfl, rfl⟩
  · rw [tick_beep hrun, tick_beepLog hrun, if_neg hone, if_neg hone]
    exact ⟨rfl, rfl⟩
  · exact State.readV_congr (tick_v s) _
  · exact State.readByte_congr (tick_mem s) (tick_cfg s) _

/-- Settles O36, by induction on the number of ticks. -/
theorem manyTicksReachZeroAndStay : Obligations.ManyTicksReachZeroAndStay := by
  intro n
  induction n with
  | zero =>
    intro s _
    have hnever : ¬ (0 < s.st.toNat ∧ s.st.toNat ≤ 0) := by omega
    rw [if_neg hnever, if_neg hnever]
    exact ⟨rfl, rfl, rfl, rfl⟩
  | succ n ih =>
    intro s hrun
    obtain ⟨hdt, hst, hlog, hbeep⟩ := ih (tick s) ((tick_paused s).trans hrun)
    rw [toNat_tick_dt s hrun] at hdt
    rw [toNat_tick_st hrun] at hst hlog hbeep
    rw [tick_beepLog hrun] at hlog
    rw [tick_beep hrun] at hbeep
    refine ⟨hdt.trans (by omega), hst.trans (by omega), 
      hlog.trans (event_at_zero_succ (false :: ·) s.beepLog s.st.toNat n),
      hbeep.trans (event_at_zero_succ (fun _ => false) s.beep s.st.toNat n)⟩

/-- Settles O37, by induction on the opportunities: each is one step that uses up the schedule only. -/
theorem pauseHoldsBothLoops : Obligations.PauseHoldsBothLoops := by
  intro ts rest
  induction ts with
  | nil =>
    intro s _ _ hsched
    obtain rfl : s.schedule = rest := hsched
    rfl
  | cons t ts ih =>
    intro s hts hp hsched
    have hstep : step s = .next { s with schedule := ts ++ rest } :=
      (step_of_schedule_cons hsched).trans
        (perform_opportunity_of_paused (s := { s with schedule := ts ++ rest }) (hts t (List.mem_cons_self ..)) hp)
    refine (run_succ_of_next (M := core) hstep).trans ?_
    exact ih _ (fun u hu => hts u (List.mem_cons_of_mem _ hu)) hp rfl

/-- Settles O38: both transitions are one write of the gate. -/
theorem pauseAndResumeGate : Obligations.PauseAndResumeGate :=
  fun _ => ⟨_, _, rfl, rfl, rfl, rfl, rfl, rfl, rfl, rfl, rfl, rfl⟩

/-- Settles O39: a key number up to 15 is one write of the latch, for `KeyDown` with the slot; a larger one changes nothing. -/
theorem keyEventsLatch : Obligations.KeyEventsLatch := by
  refine ⟨fun k s => ?_, fun k s => ?_, fun k s hk => ?_⟩
  · refine ⟨_, congrArg Host.Outcome.next (keyDown_of_lt k.isLt), ?_, rfl, fun j hj => ?_, rfl⟩
    · exact (getElem_set_keys s.keys k k true).trans (if_pos rfl)
    · exact (getElem_set_keys s.keys k j true).trans (if_neg hj)
  · refine ⟨_, congrArg Host.Outcome.next (keyUp_of_lt k.isLt), ?_, rfl, fun j hj => ?_, rfl⟩
    · exact (getElem_set_keys s.keys k k false).trans (if_pos rfl)
    · exact (getElem_set_keys s.keys k j false).trans (if_neg hj)
  · have hnot : ¬ k < 16 := by omega
    exact ⟨congrArg Host.Outcome.next (keyDown_of_beyond hk), if_neg hnot,
      congrArg Host.Outcome.next (keyUp_of_beyond hk), if_neg hnot⟩

end Sys2Proof.Proofs
end

section
/-! PROOF. Reset and load (spec/70_reset_and_hazards.md R270, R272): what memory reads as after a reset, the boot order, and
obligations O42, O43 and O50 from these. -/

namespace Sys2Proof.Machine

variable {s : State}

theorem unlisted_font (font : Vector Byte 80) (a : Fin 80) : Memory.unlisted font (0x050 + a.val) = font[a] := by
  have hbase : fontBase ≤ 0x050 + a.val := Nat.le_add_right _ _
  rw [Memory.unlisted, if_pos hbase, fontBase, Nat.add_sub_cancel_left]
  simp [Vector.getD]

theorem unlisted_outside (font : Vector Byte 80) {a : Nat} (h : a < 0x050 ∨ 0x0A0 ≤ a) : Memory.unlisted font a = 0 := by
  unfold Memory.unlisted fontBase
  split
  · have hbeyond : 80 ≤ a - 0x050 := by omega
    simp [Vector.getD, hbeyond]
  · rfl

theorem perform_reset (s : State) : perform .reset s = .next (reset s) := rfl

theorem reset_readByte (s : State) (a : Nat) : (reset s).readByte a = Memory.unlisted s.cfg.fontData a := rfl

theorem reset_readV (s : State) (x : Reg) : (reset s).readV x = 0 := Vector.getElem_replicate x.isLt

theorem reset_readStack (s : State) (k : Slot) : (reset s).readStack k = 0 := Vector.getElem_replicate k.isLt

theorem reset_pixel (s : State) (c : Fin 64) (r : Fin 32) : (reset s).screen.pixel c r = false := Screen.pixel_clear c r

theorem reset_key (s : State) (k : Key) : (reset s).keys[k] = false := Vector.getElem_replicate k.isLt

theorem perform_loadRom (bytes : List Byte) (h : s.boot ≠ .started) :
    perform (.loadRom bytes) s = .next (loadRom bytes s) := loadRomTransition_eq bytes h

theorem perform_loadRom_of_started (bytes : List Byte) (h : s.boot = .started) :
    perform (.loadRom bytes) s = .refused .loadRomIntoRunningMachine := by
  simp only [perform, loadRomTransition, h]

theorem cycle_of_due (h : s.bootAllowsCycle = false) : cycle s = .next s :=
  cycle_of_not_enabled (by rw [State.cycleEnabled, h, Bool.and_false])

/-- A `Cycle` that has a step marks the machine as started, whatever it fetches. -/
theorem cycle_of_enabled (h : s.cycleEnabled = true) : ∃ u, cycle s = .next u ∧ u.boot = .started := by
  rw [cycle, if_pos h]
  obtain ⟨-, hf⟩ | ⟨-, w, -, ⟨-, hf⟩ | ⟨ins, -, hf⟩⟩ := fetchDecodeExecute_eq { s with boot := .started }
  · exact ⟨_, hf, rfl⟩
  · exact ⟨_, hf, rfl⟩
  · obtain ⟨t, hexec, heffect⟩ := exec_effect ins (({ s with boot := .started } : State).afterFetch w)
    exact ⟨t, hf.trans hexec, heffect.boot⟩

end Sys2Proof.Machine

namespace Sys2Proof.Proofs

open Sys2Proof.Machine

/-- Settles O42: each field of the reset state, and of memory what unlisted addresses read as. -/
theorem resetRestoresResetValues : Obligations.ResetRestoresResetValues := by
  intro s
  have hfont (a : Fin 80) : (reset s).readByte (0x050 + a.val) = s.cfg.fontData[a] :=
    (reset_readByte s _).trans (unlisted_font _ a)
  have hzero (a : Nat) (ha : a < 0x050 ∨ 0x0A0 ≤ a) : (reset s).readByte a = 0 :=
    (reset_readByte s a).trans (unlisted_outside _ ha)
  exact ⟨_, perform_reset s, reset_readV s, rfl, rfl, reset_readStack s, rfl, rfl, rfl, hfont, hzero, reset_pixel s, rfl,
    reset_key s, rfl, rfl, rfl, rfl, rfl, rfl, rfl, rfl, rfl, rfl, rfl, rfl⟩

/-- Settles O50: the reset state waits for no key, is silent and RUNNING with no cause, and stands at the entry point. -/
theorem resetMeetsInvariants : Obligations.ResetMeetsInvariants := by
  intro cfg
  have hwait : WaitHoldsFx0A (State.resetWith cfg) := fun h => absurd h Bool.false_ne_true
  have hsilent : SoundMeansBeep (State.resetWith cfg) := fun h => absurd rfl h
  have hrecord : FaultRecorded (State.resetWith cfg) := ⟨⟨fun h => (nomatch h), fun h => absurd rfl h⟩, fun _ => rfl⟩
  have hentry : AtEntryUntilStarted (State.resetWith cfg) :=
    fun _ => ⟨rfl, rfl, rfl, rfl, rfl, rfl, rfl, fun k => Vector.getElem_replicate k.isLt⟩
  exact ⟨Memory.wf_nil, hwait, hsilent, hrecord, rfl, hentry⟩

/-- Settles O43: before the first `Cycle` a load is a store and a place in the boot order, or that place alone; the place
decides whether a `Cycle` has a step. -/
theorem loadRomCopiesOrRejects : Obligations.LoadRomCopiesOrRejects := by
  refine ⟨fun bytes s hcanonical hboot hlen => ?_, fun bytes s hboot hlen => ?_,
    fun bytes _ => perform_loadRom_of_started bytes⟩
  · have hload := perform_loadRom bytes hboot
    rw [loadRom_accepted hlen] at hload
    refine ⟨_, hload, if_neg (not_lt.2 hlen), fun k hk => store_readByte_inside hcanonical hk,
      store_memKeptOutside s 0x200 bytes, rfl, fun hready => ?_, fun hfailed => ?_⟩
    · have hnext : bootAfterLoad s.boot = .ready := by obtain h | h := hready <;> rw [h] <;> rfl
      refine ⟨hnext, fun hstatus hpaused hwait => cycle_of_enabled (cycleEnabled_iff.2 ⟨hstatus, hpaused, hwait, ?_⟩)⟩
      simp only [State.bootAllowsCycle, hnext]
    · have hnext : bootAfterLoad s.boot = .loadFailed := by rw [hfailed]; rfl
      refine ⟨hnext, cycle_of_due ?_⟩
      simp only [State.bootAllowsCycle, hnext]
  · have hload := perform_loadRom bytes hboot
    rw [loadRom_rejected hlen] at hload
    exact ⟨_, _, hload, if_pos hlen, rfl, cycle_of_due rfl, perform_reset _, rfl, cycle_of_due rfl⟩

end Sys2Proof.Proofs
end

section
/-! PROOF. What a transition can do, said once over all of them, and what every step keeps by it: the six invariants and the
rules of the whole machine. Obligations O44 to O49, O51, O56 and O57. -/

namespace Sys2Proof.Machine

variable {s t : State}

/-- The state after the fetch of a `Cycle` that has a step. -/
def State.fetched (s : State) (w : Word) : State := ({ s with boot := .started } : State).afterFetch w

/-- What the transition `tr` can do to the state `s`. -/
inductive Turn (s : State) : Transition → State → Prop
  /-- No step of a loop, or a pure read. -/
  | held {tr : Transition} (htr : isOpportunity tr = true ∨ tr = .readScreen ∨ tr = .dump) : Turn s tr s
  /-- A fetch beyond memory. -/
  | fetchFault (henabled : s.cycleEnabled = true) :
    Turn s .cycle (raise .memoryFault s.pc { s with boot := .started })
  /-- A word that is no instruction. -/
  | decodeFault (w : Word) (henabled : s.cycleEnabled = true) : Turn s .cycle (raise .unknownOpcode w (s.fetched w))
  /-- An instruction executed. -/
  | execute {w : Word} {ins : Instr} {t : State} (henabled : s.cycleEnabled = true)
    (hword : decodeWord w = some ins) (heffect : Effect (s.fetched w) ins t) : Turn s .cycle t
  /-- A key delivered to the `Fx0A` that waits. -/
  | deliver (k : Key) (hstatus : s.status = .running) (hwait : s.waitKey = true) :
    Turn s .keyWaitComplete (deliverKey k s)
  | tick : Turn s .tick (tick s)
  | keyDown (k : Nat) : Turn s (.keyDown k) (keyDown k s)
  | keyUp (k : Nat) : Turn s (.keyUp k) (keyUp k s)
  | pause : Turn s .pause (pause s)
  | resume : Turn s .resume (resume s)
  | clearRedraw : Turn s .clearRedraw (clearRedraw s)
  | reset : Turn s .reset (reset s)
  /-- A load before the first `Cycle`, copied or rejected. -/
  | loadRom (bytes : List Byte) (hboot : s.boot ≠ .started) : Turn s (.loadRom bytes) (loadRom bytes s)

theorem turn_of_cycle (h : cycle s = .next t) : Turn s .cycle t := by
  obtain rfl | ⟨henabled, ⟨-, rfl⟩ | ⟨w, -, rfl⟩ | ⟨w, ins, hword, hexec⟩⟩ := cycle_cases h
  · exact .held (.inl rfl)
  · exact .fetchFault henabled
  · exact .decodeFault w henabled
  · exact .execute henabled hword (effect_of_exec hexec)

theorem turn_keyWaitComplete (s : State) : Turn s .keyWaitComplete (keyWaitComplete s) := by
  obtain h | ⟨k, hstatus, hwait, -, -, h⟩ := keyWaitComplete_cases s
  · rw [h]
    exact .held (.inl rfl)
  · rw [h]
    exact .deliver k hstatus hwait

/-- A transition that answers a next state takes one of the turns. -/
theorem turn_of_perform {tr : Transition} (h : perform tr s = .next t) : Turn s tr t := by
  cases tr
  case cycle => exact turn_of_cycle h
  case loadRom bytes =>
    by_cases hboot : s.boot = .started
    · rw [perform_loadRom_of_started bytes hboot] at h
      cases h
    · rw [perform_loadRom bytes hboot] at h
      cases h
      exact .loadRom bytes hboot
  all_goals obtain rfl := Host.Outcome.next.inj h
  case keyWaitComplete => exact turn_keyWaitComplete s
  case tick => exact .tick
  case keyDown k => exact .keyDown k
  case keyUp k => exact .keyUp k
  case pause => exact .pause
  case resume => exact .resume
  case readScreen => exact .held (.inr (.inl rfl))
  case clearRedraw => exact .clearRedraw
  case dump => exact .held (.inr (.inr rfl))
  case reset => exact .reset

/-- What every turn keeps, and the schedule does not bear on, every step keeps. -/
theorem step_keeps_of_turn {P : State → Prop}
    (hschedule : ∀ (s : State) (l : List Transition), P s → P { s with schedule := l })
    (hturn : ∀ (s t : State) (tr : Transition), P s → Turn s tr t → P t) (hs : P s) (h : step s = .next t) : P t :=
  step_keeps hschedule (fun tr s t hP hperform => hturn s t tr hP (turn_of_perform hperform)) hs h

/-! ### The invariants at an instruction -/

theorem Effect.memCanonical {ins : Instr} (h : Effect s ins t) (hs : MemCanonical s) : MemCanonical t := by
  unfold MemCanonical at hs ⊢
  cases h
  case digits x hbound =>
    exact Memory.wf_writeList hs (.inr (Nat.succ_le_succ hbound))
  case storeBlock x w hbound _ =>
    refine Memory.wf_writeList hs (.inr ?_)
    rw [length_readBlock]
    exact Nat.succ_le_succ hbound
  all_goals exact hs

theorem Effect.slotZeroUntouched {ins : Instr} (h : Effect s ins t) (hs : SlotZeroUntouched s) : SlotZeroUntouched t := by
  unfold SlotZeroUntouched State.readStack at hs ⊢
  cases h
  case call nnn target hslot => exact (readStack_pushStack s.pc 0).trans ((if_neg hslot.symm).trans hs)
  all_goals exact hs

theorem Effect.soundMeansBeep {ins : Instr} (h : Effect s ins t) (hs : SoundMeansBeep s) : SoundMeansBeep t := by
  unfold SoundMeansBeep at hs ⊢
  cases h
  case sound x => exact fun hst => if_neg hst
  all_goals exact hs

theorem raise_faultRecorded {cause : FaultCause} (info : Word) (hcause : cause ≠ .none) :
    FaultRecorded (raise cause info s) :=
  ⟨⟨fun _ => hcause, fun _ => rfl⟩, fun hnone => absurd hnone hcause⟩

theorem Effect.faultRecorded {ins : Instr} (h : Effect s ins t) (hs : FaultRecorded s) : FaultRecorded t := by
  unfold FaultRecorded at hs ⊢
  cases h
  case fault cause info hcause hins => exact raise_faultRecorded (s := s) info hcause
  all_goals exact hs

theorem waitKey_of_cycleEnabled (h : s.cycleEnabled = true) : s.waitKey = false := by
  obtain ⟨-, -, hwait, -⟩ := cycleEnabled_iff.1 h
  exact hwait

/-- A `Cycle` has no step while an `Fx0A` waits, so none waits where it changes no `WaitKey`. -/
theorem waitHoldsFx0A_of_cycle (henabled : s.cycleEnabled = true) (h : t.waitKey = s.waitKey) : WaitHoldsFx0A t :=
  fun hwait => absurd ((waitKey_of_cycleEnabled henabled).symm.trans (h.symm.trans hwait)) Bool.false_ne_true

/-- The wait begins with the word of an `Fx0A` (R202). -/
theorem Effect.waitHoldsFx0A {ins : Instr} (h : Effect s ins t) (hword : decodeWord s.ir = some ins)
    (hwait : s.waitKey = false) : WaitHoldsFx0A t := by
  cases h
  case wait x => exact fun _ => ⟨x, hword⟩
  all_goals exact fun hstill => absurd (hwait.symm.trans hstill) Bool.false_ne_true

/-! ### The invariants at a tick -/

theorem tick_soundMeansBeep (hs : SoundMeansBeep s) : SoundMeansBeep (tick s) := by
  cases hp : s.paused
  case true => rwa [tick_of_paused hp]
  case false =>
    intro hst
    have hcount := toNat_tick_st hp
    have hone : s.st.toNat ≠ 1 := by bv_omega
    rw [tick_beep hp, if_neg hone]
    exact hs (by bv_omega)

theorem tick_of_stopped (hdt : s.dt = 0) (hst : s.st = 0) : tick s = s := by
  have hsound : tickSound s = s := if_pos hst
  have hdelay : tickDelay s = s := if_pos hdt
  rw [tick, hsound, hdelay, ite_self]

/-! ### Where a step stops -/

theorem not_cycleEnabled_of_faulted (h : s.status = .faulted) : ¬ s.cycleEnabled = true :=
  Bool.eq_false_iff.1 (cycleEnabled_eq_false (.inr (.inl h)))

theorem cycle_next (s : State) : ∃ t, cycle s = .next t := by
  cases h : s.cycleEnabled
  case false => exact ⟨s, cycle_of_not_enabled h⟩
  case true =>
    obtain ⟨t, hcycle, -⟩ := cycle_of_enabled h
    exact ⟨t, hcycle⟩

theorem executorTurn_next (s : State) : ∃ t, executorTurn s = .next t := by
  unfold executorTurn
  split
  · exact ⟨_, rfl⟩
  · exact cycle_next s

/-- A transition answers a next state or is a load into a running machine. -/
theorem perform_next_or_refused (tr : Transition) (s : State) : (∃ t, perform tr s = .next t) ∨
    (s.boot = .started ∧ (∃ bytes, tr = .loadRom bytes) ∧ perform tr s = .refused .loadRomIntoRunningMachine) := by
  cases tr
  case cycle => exact .inl (cycle_next s)
  case loadRom bytes =>
    by_cases hboot : s.boot = .started
    · exact .inr ⟨hboot, ⟨bytes, rfl⟩, perform_loadRom_of_started bytes hboot⟩
    · exact .inl ⟨_, perform_loadRom bytes hboot⟩
  all_goals exact .inl ⟨_, rfl⟩

end Sys2Proof.Machine

namespace Sys2Proof.Proofs

open Sys2Proof.Machine

/-- Settles O44: the stores of `Fx33`, `Fx55` and `LoadRom` are within memory, `Reset` lists nothing, and no other turn writes
memory. -/
theorem memoryStaysCanonical : Obligations.MemoryStaysCanonical := by
  refine fun s t => step_keeps_of_turn (fun _ _ h => h) fun s t tr hs hturn => ?_
  cases hturn
  case execute w ins henabled hword heffect => exact heffect.memCanonical hs
  case reset => exact Memory.wf_nil
  case loadRom bytes hboot =>
    by_cases hlen : bytes.length ≤ 3584
    · rw [loadRom_accepted hlen]
      exact Memory.wf_writeList hs (.inr (by unfold memSize; omega))
    · rw [loadRom_rejected (by omega)]
      exact hs
  all_goals simpa [MemCanonical, deliverKey, State.fetched] using hs

/-- Settles O45: the wait begins with the fetched word in `IR`, only a `Cycle` writes `IR`, and it has no step while an `Fx0A`
waits. -/
theorem waitingKeepsFx0AInIR : Obligations.WaitingKeepsFx0AInIR := by
  refine fun s t => step_keeps_of_turn (fun _ _ h => h) fun s t tr hs hturn => ?_
  cases hturn
  case execute w ins henabled hword heffect =>
    have hwait : (s.fetched w).waitKey = false := waitKey_of_cycleEnabled (s := s) henabled
    exact heffect.waitHoldsFx0A hword hwait
  case fetchFault henabled => exact waitHoldsFx0A_of_cycle henabled rfl
  case decodeFault w henabled => exact waitHoldsFx0A_of_cycle henabled rfl
  case deliver k hstatus hwait => exact fun hstill => (nomatch hstill)
  case reset => exact fun hstill => (nomatch hstill)
  all_goals simpa [WaitHoldsFx0A] using hs

/-- Settles O46: `Fx18` starts the beep with the timer, and a tick ends it only at 0. -/
theorem soundTimerKeepsBeepOn : Obligations.SoundTimerKeepsBeepOn := by
  refine fun s t => step_keeps_of_turn (fun _ _ h => h) fun s t tr hs hturn => ?_
  cases hturn
  case execute w ins henabled hword heffect => exact heffect.soundMeansBeep hs
  case tick => exact tick_soundMeansBeep hs
  case reset => exact fun hst => absurd rfl hst
  all_goals simpa [SoundMeansBeep, deliverKey, State.fetched] using hs

/-- Settles O47: every fault has a cause, and of the other turns only `Reset` writes the record. -/
theorem faultRecordStaysConsistent : Obligations.FaultRecordStaysConsistent := by
  refine fun s t => step_keeps_of_turn (fun _ _ h => h) fun s t tr hs hturn => ?_
  cases hturn
  case execute w ins henabled hword heffect => exact heffect.faultRecorded hs
  case fetchFault => exact raise_faultRecorded _ (by decide)
  case decodeFault w henabled => exact raise_faultRecorded _ (by decide)
  case reset => exact ⟨⟨fun h => (nomatch h), fun h => absurd rfl h⟩, fun _ => rfl⟩
  all_goals simpa [FaultRecorded, deliverKey, State.fetched] using hs

/-- Settles O48: a call below depth 15 writes a slot above 0, and of the other turns only `Reset` writes a slot. -/
theorem slotZeroIsNeverWritten : Obligations.SlotZeroIsNeverWritten := by
  refine fun s t => step_keeps_of_turn (fun _ _ h => h) fun s t tr hs hturn => ?_
  cases hturn
  case execute w ins henabled hword heffect => exact heffect.slotZeroUntouched hs
  case reset => exact reset_readStack s 0
  all_goals simpa [SlotZeroUntouched, State.readStack, deliverKey, State.fetched] using hs

/-- Settles O49: a `Cycle` that has a step marks the machine as started, no `Fx0A` waits before it, and a tick finds both
timers at 0. -/
theorem entryPointUntilFirstCycle : Obligations.EntryPointUntilFirstCycle := by
  refine fun s t => step_keeps_of_turn (fun _ _ h => h) fun s t tr hs hturn => ?_
  cases hturn
  case execute w ins henabled hword heffect => exact fun hboot => absurd heffect.boot hboot
  case fetchFault henabled => exact fun hboot => absurd rfl hboot
  case decodeFault w henabled => exact fun hboot => absurd rfl hboot
  case deliver k hstatus hwait =>
    intro hboot
    obtain ⟨-, -, -, -, -, hnot, -⟩ := hs hboot
    exact absurd (hnot.symm.trans hwait) Bool.false_ne_true
  case tick =>
    intro hboot
    obtain ⟨-, -, -, hdt, hst, -⟩ := hs ((tick_boot s) ▸ hboot)
    rw [tick_of_stopped hdt hst] at hboot ⊢
    exact hs hboot
  case reset => exact fun _ => ⟨rfl, rfl, rfl, rfl, rfl, rfl, rfl, reset_readV s⟩
  case loadRom bytes hboot => simpa [AtEntryUntilStarted, State.readV] using fun _ => hs hboot
  all_goals simpa [AtEntryUntilStarted, State.readV] using hs

/-- Settles O51: no turn writes the parameters. -/
theorem parametersAreConstant : Obligations.ParametersAreConstant := by
  intro s t hstep
  refine step_keeps_of_turn (P := fun u => u.cfg = s.cfg) (fun _ _ h => h) (fun u t tr hu hturn => ?_) rfl hstep
  cases hturn
  case execute w ins henabled hword heffect => exact heffect.cfg.trans hu
  all_goals simpa [deliverKey, State.fetched, reset, State.resetWith] using hu

/-- Settles O56: a faulted machine has no `Cycle` and no `KeyWaitComplete`, and the other transitions are the ones of every
state. -/
theorem faultIsTerminalUntilReset : Obligations.FaultIsTerminalUntilReset := by
  refine ⟨fun s t hfault hstep hreset => ?_, fun s hfault hsched => ?_, fun s rest hfault hrun hsched => ?_,
    fun s k rest hfault => ⟨fun hsched => ?_, fun hsched => ?_⟩,
    fun s rest hfault => ⟨fun hsched => step_of_schedule_cons hsched, fun hsched => step_of_schedule_cons hsched,
      fun hsched => step_of_schedule_cons hsched, fun hsched => ?_, fun hsched => ?_⟩⟩
  · obtain ⟨-, hrunning, -⟩ | ⟨tr, rest, hsched, hperform⟩ := step_cases hstep
    · exact absurd (hfault.symm.trans hrunning) (by decide)
    · cases turn_of_perform hperform
      case execute w ins henabled hword heffect => exact absurd henabled (not_cycleEnabled_of_faulted hfault)
      case fetchFault henabled => exact absurd henabled (not_cycleEnabled_of_faulted hfault)
      case decodeFault w henabled => exact absurd henabled (not_cycleEnabled_of_faulted hfault)
      case deliver k hstatus hwait => exact absurd (hfault.symm.trans hstatus) (by decide)
      case reset => exact absurd (congrArg List.head? hsched) hreset
      all_goals simp [hfault]
  · simp only [step, nextTransition, hsched, unscheduledTurn, hfault]
  · obtain ⟨t, hperform, -, hcount⟩ := tickCountsDown { s with schedule := rest }
    obtain ⟨hst, hdt, hone, -, -, -, hframe⟩ := hcount hrun
    exact ⟨t, (step_of_schedule_cons hsched).trans hperform, congrArg (·.schedule) hframe, hdt, hst, hone⟩
  · obtain ⟨t, hperform, hdown, hlast, -⟩ := keyEventsLatch.1 k { s with schedule := rest }
    exact ⟨t, (step_of_schedule_cons hsched).trans hperform, hdown, hlast⟩
  · obtain ⟨t, hperform, hup, hlast, -⟩ := keyEventsLatch.2.1 k { s with schedule := rest }
    exact ⟨t, (step_of_schedule_cons hsched).trans hperform, hup, hlast⟩
  · obtain hsched | hsched := hsched
    · exact step_of_schedule_cons hsched
    · exact step_of_schedule_cons hsched
  · exact ⟨_, step_of_schedule_cons hsched, rfl, rfl, rfl⟩

/-- Settles O57: without a schedule only a faulted machine halts, and of the transitions only a load can be refused. -/
theorem stepStopsOnlyWhereNamed : Obligations.StepStopsOnlyWhereNamed := by
  intro s
  cases hsched : s.schedule with
  | nil =>
    cases hstatus : s.status with
    | running =>
      left
      obtain ⟨t, hturn⟩ := executorTurn_next s
      exact ⟨t, by simp only [step, nextTransition, hsched, unscheduledTurn, hstatus, hturn]⟩
    | faulted => exact .inr (.inl ⟨rfl, rfl, faultIsTerminalUntilReset.2.1 s hstatus hsched⟩)
  | cons tr rest =>
    rw [step_of_schedule_cons hsched]
    obtain hnext | ⟨hboot, ⟨bytes, rfl⟩, hrefused⟩ := perform_next_or_refused tr { s with schedule := rest }
    · exact .inl hnext
    · exact .inr (.inr ⟨hboot, ⟨bytes, rfl⟩, hrefused⟩)

end Sys2Proof.Proofs
end
